-- ==== Sys2Proof/Word.lean ====
section
/-! DEFINITION. The words of the RC5 cipher engine: bytes, packets, datapath registers and the three word sizes (rules R10,
R17, R18, R27). -/

namespace Sys2Proof

/-- A byte (rule R18). -/
abbrev Byte := BitVec 8

/-- A byte sequence delivered or answered whole (rules R18, R60). -/
abbrev Packet := List Byte

/-- A datapath register or table entry: physically 64 bits, of which only the low `W` bits exist architecturally (rule
R27). DEDUCED (log 15): a `W`-bit word is held zero-extended. -/
abbrev Word := BitVec 64

/-- The three word sizes the engine supports: `u` = 2, 4 or 8 bytes (rule R10). -/
inductive Width where
  | w16
  | w32
  | w64
  deriving DecidableEq, Repr

end Sys2Proof
end

