-- ==== Sys2Proof/Syntax.lean ====
section
/-! DEFINITION. The engine's command set: the four defined commands of the opcode table with their operands (rules R62 to
R66, R73, R77). -/

namespace Sys2Proof

/-- A defined command, the non-`Illegal` part of the `Cmd` type of rule R73. The length fields `klen` and `n` of a packet
are the lengths of `key` and `block`. -/
inductive Instr where
  /-- `INIT`, format I (rule R63): construct the engine. -/
  | init (wb : BitVec 8) (rounds kbl : BitVec 32) (key : List Byte)
  /-- `KSCHED`, format N (rule R64): generate and return the key schedule. -/
  | ksched
  /-- `ENCRYPT`, format B (rule R65): encrypt one block. -/
  | encrypt (block : List Byte)
  /-- `DECRYPT`, format B (rule R66): decrypt one block. -/
  | decrypt (block : List Byte)
  deriving DecidableEq, Repr

end Sys2Proof
end

