-- ==== Sys2Proof/WellFormed.lean ====
section
/-! DEFINITION. When a command has an encoding: the ranges that rule R73 gives the lengths of `key` and `block`, because
the packet holds them in a 32-bit and an 8-bit field (rules R63, R65, R66). -/

namespace Sys2Proof

/-- `klen` is a 32-bit field (rule R63). -/
def keyFits (key : List Byte) : Bool := decide (key.length < 2 ^ 32)

/-- `n` is an 8-bit field, `0 .. 255` (rules R65, R66). -/
def blockFits (block : List Byte) : Bool := decide (block.length < 2 ^ 8)

/-- The command values of rule R73. Everything else about an operand (the word size, the limits, the block length the
engine wants) is a semantic check of the command, not of the format (rules R65, R86). -/
def Instr.wf : Instr → Bool
  | .init _ _ _ key => keyFits key
  | .ksched => true
  | .encrypt block => blockFits block
  | .decrypt block => blockFits block

end Sys2Proof
end

