-- ==== Sys2Proof/Decode.lean ====
section
/-! DEFINITION. From packet to command and back: the decoder of rule R73, total on every byte sequence and refusing by
name, the encoder, the self-delimiting lengths of rule R74, and the opcode table's numbering of a packet's bits. -/

namespace Sys2Proof

/-- Why a packet is `Illegal` (rules R68, R69). -/
inductive IllegalReason where
  /-- A packet of length 0 has no opcode (rules R61, R68). -/
  | emptyPacket
  /-- Opcodes `0x00` and `0x05` to `0xFF` (rule R69). -/
  | reservedOpcode
  /-- A defined opcode with a length its format does not allow (rule R68). -/
  | malformed
  deriving DecidableEq, Repr

/-- What a packet decodes to: the `Cmd` type of rule R73. -/
inductive Cmd where
  | instr (i : Instr)
  | illegal (why : IllegalReason)
  deriving DecidableEq, Repr

/- The opcode map (rule R62). -/
def opInit : Byte := 0x01
def opKsched : Byte := 0x02
def opEncrypt : Byte := 0x03
def opDecrypt : Byte := 0x04

/-- A 32-bit field at offsets `o .. o+3`, little-endian: the first byte is the least significant (rule R67). -/
def fieldOfBytes (b0 b1 b2 b3 : Byte) : BitVec 32 := b3 ++ b2 ++ b1 ++ b0

/-- The four bytes of a 32-bit field in packet order (rule R67). -/
def bytesOfField (v : BitVec 32) : List Byte :=
  [v.extractLsb' 0 8, v.extractLsb' 8 8, v.extractLsb' 16 8, v.extractLsb' 24 8]

/-- Format I (rule R63), the bytes after the opcode. -/
def decodeInit : List Byte → Cmd
  | wb :: r0 :: r1 :: r2 :: r3 :: b0 :: b1 :: b2 :: b3 :: n0 :: n1 :: n2 :: n3 :: key =>
    if key.length = (fieldOfBytes n0 n1 n2 n3).toNat then
      .instr (.init wb (fieldOfBytes r0 r1 r2 r3) (fieldOfBytes b0 b1 b2 b3) key)
    else .illegal .malformed
  | _ => .illegal .malformed

/-- Format N (rule R64), the bytes after the opcode. -/
def decodeKsched : List Byte → Cmd
  | [] => .instr .ksched
  | _ :: _ => .illegal .malformed

/-- Format B (rules R65, R66), the bytes after the opcode: any `n` is well-formed. -/
def decodeBlockFormat (command : List Byte → Instr) : List Byte → Cmd
  | n :: block => if block.length = n.toNat then .instr (command block) else .illegal .malformed
  | [] => .illegal .malformed

/-- The total decoder (rule R73). It reads no engine state. -/
def decode : Packet → Cmd
  | [] => .illegal .emptyPacket
  | op :: operands =>
    if op = opInit then decodeInit operands
    else if op = opKsched then decodeKsched operands
    else if op = opEncrypt then decodeBlockFormat .encrypt operands
    else if op = opDecrypt then decodeBlockFormat .decrypt operands
    else .illegal .reservedOpcode

/-- The packet of a command (rules R63 to R66). -/
def encode : Instr → Packet
  | .init wb rounds kbl key =>
    opInit :: wb :: (bytesOfField rounds ++ bytesOfField kbl ++ bytesOfField (BitVec.ofNat 32 key.length) ++ key)
  | .ksched => [opKsched]
  | .encrypt block => opEncrypt :: BitVec.ofNat 8 block.length :: block
  | .decrypt block => opDecrypt :: BitVec.ofNat 8 block.length :: block

/-- The length of the well-formed packet that a byte stream begins with, found from byte 0 and the length field at offset
1 or offsets 10 to 13 (rule R74); `none` where the stream shows no defined opcode or no length field. -/
def packetLength : List Byte → Option Nat
  | [] => none
  | op :: operands =>
    if op = opInit then
      match operands with
      | _ :: _ :: _ :: _ :: _ :: _ :: _ :: _ :: _ :: n0 :: n1 :: n2 :: n3 :: _ =>
        some (14 + (fieldOfBytes n0 n1 n2 n3).toNat)
      | _ => none
    else if op = opKsched then some 1
    else if op = opEncrypt ∨ op = opDecrypt then
      match operands with
      | n :: _ => some (2 + n.toNat)
      | [] => none
    else none

/-- The first `n` bytes of a number whose bit 0 is the least significant bit of the first byte. -/
def bytesOfNat (n w : Nat) : List Byte := (List.range n).map fun i => BitVec.ofNat 8 (w >>> (8 * i))

/-- How many bytes the instruction has whose bits are `w`, by the length field its format puts there (rule R74; for
format I offsets 10 to 13, for format B offset 1). DEDUCED (log 17): the bits the opcode table gives no row are zero, so
the length fields read zero where the row is shorter. -/
def tableWordLength (w : Nat) : Nat :=
  let op := BitVec.ofNat 8 w
  if op = opInit then 14 + (w >>> 80) % 2 ^ 32
  else if op = opEncrypt ∨ op = opDecrypt then 2 + (w >>> 8) % 2 ^ 8
  else 1

/-- The packet of an opcode-table word: its `nbits` bits, and zero bytes up to the instruction's length (log 17). -/
def packetOfTableWord (nbits w : Nat) : Packet :=
  let bits := w % 2 ^ nbits
  bytesOfNat (max (nbits / 8) (tableWordLength bits)) bits

/-- The instruction the decoder reads from an opcode-table word. -/
def decodeTableWord (nbits w : Nat) : Option Instr :=
  match decode (packetOfTableWord nbits w) with
  | .instr i => some i
  | .illegal _ => none

end Sys2Proof
end

