-- ==== Sys2Proof/Config.lean ====
section
/-! DEFINITION. What an implementation fixes (the parameters of rules R14, R15, R16) and the values the spec leaves
unspecified (rules R33, R35, R172). -/

namespace Sys2Proof

/-- Whether an implementation keeps the key schedule table of a lifetime, and when it fills the copy (rules R16, R34, R90).
-/
inductive CachePolicy where
  /-- No cache: the reference behaviour, every command recomputes `S` (rule R34). -/
  | never
  /-- The first command that computes `S` keeps it. -/
  | onUse
  /-- A successful `INIT` fills the cache when the key tests of rule R116 would pass (rule R90); otherwise as `onUse`. -/
  | atInit
  deriving DecidableEq, Repr

/-- The named parameters of rules R14 and R15 and the option of rule R16, fixed for the machine. DESIGN CHOICE (log 2): they
are a field of `State` that no step changes, so that a statement about every state holds for every value of them. -/
structure Params where
  /-- `R_MAX`, the largest `rounds` an `INIT` accepts (rule R14). -/
  rMax : Nat
  /-- `B_MAX`, the largest key length an `INIT` accepts (rule R14). -/
  bMax : Nat
  /-- `Q64`, the 64-bit constant `Q` (rules R15, R104). -/
  q64 : Word
  /-- The optional key-schedule cache (rules R16, R34). -/
  cache : CachePolicy
  deriving DecidableEq, Repr

/-- The bounds rule R14 puts on the limits. -/
abbrev Params.Legal (p : Params) : Prop := p.rMax ≤ 2 ^ 28 - 2 ∧ p.bMax ≤ 2 ^ 32 - 1

/- Free values: no body, so no proof can see one. Each takes the number of the draw (`State.draws`) and the place it is
put in (log 5, log 6). -/

/-- An unspecified register content. -/
opaque Config.freeWord (draw place : Nat) : Word
/-- An unspecified table content. -/
opaque Config.freeTable (draw place : Nat) : List Word
/-- An unspecified byte sequence. -/
opaque Config.freeBytes (draw place : Nat) : List Byte
/-- An unspecified counter content. -/
opaque Config.freeCounter (draw place : Nat) : Nat
/-- An unspecified 8-bit register content. -/
opaque Config.freeByte (draw place : Nat) : BitVec 8
/-- An unspecified 32-bit register content. -/
opaque Config.freeWord32 (draw place : Nat) : BitVec 32

end Sys2Proof
end

