-- ==== Sys2Proof/Machine/Defaults.lean ====
section
/-! DEFINITION. The parameter values the machine has in `State.reset` (log 1). No statement rests on the limits or
the cache option; one says that `Q64` has its decided value (rule R15). -/

namespace Sys2Proof

/-- `R_MAX` at reset: the value rule R14 suggests. DESIGN CHOICE (log 1). -/
def Params.defaultRMax : Nat := 255

/-- `B_MAX` at reset: the value rule R14 suggests. DESIGN CHOICE (log 1). -/
def Params.defaultBMax : Nat := 255

/-- `Q64` at reset: the decided value of rule R104, conflict C2. -/
def Params.defaultQ64 : Word := 0x9E3779B97F4A7C15

/-- The cache option at reset: none, the reference behaviour of rule R34. DESIGN CHOICE (log 1, log 12). -/
def Params.defaultCache : CachePolicy := .never

/-- The parameters of `State.reset`. -/
def Params.default : Params :=
  { rMax := Params.defaultRMax, bMax := Params.defaultBMax, q64 := Params.defaultQ64, cache := Params.defaultCache }

end Sys2Proof
end

