-- ==== Sys2Proof/Machine/State.lean ====
section
/-! DEFINITION. The engine's state as plain data (rules R20 to R36, R40), the host actions it answers (rule R9), the reasons
a step can stop, and the state after reset (rules R35, R191). -/

namespace Sys2Proof.Machine

/-- `LIFE` (rule R21): whether an Engine object currently exists. -/
inductive Life where
  | unconfigured
  | configured
  deriving DecidableEq, Repr

/-- The `phase` of the sequencer (rule R30). -/
inductive Phase where
  | idle
  | check
  | ksL
  | ksS
  | ksMix
  | encPre
  | encRnd
  | decRnd
  | decPost
  | out
  deriving DecidableEq, Repr

/-- Scratch state (rule R20, item 2): unspecified at reset and after every command, written before read (rules R33, R35).
Counters are natural numbers (rule R19); rule R30 gives their ranges. -/
structure Scratch where
  /-- `A`, first half of the block (rule R27). -/
  a : Word
  /-- `B`, second half of the block (rule R27). -/
  b : Word
  /-- `KA`, mixing accumulator (rule R27). -/
  ka : Word
  /-- `KB`, mixing accumulator (rule R27). -/
  kb : Word
  /-- `S`, the key schedule table (rule R28). -/
  S : List Word
  /-- `L`, the expanded key buffer (rule R29). -/
  L : List Word
  /-- `BLK`, the input block and then the output block (rule R40). -/
  blk : List Byte
  /-- Index into `S` in the mixing loop (rule R30). -/
  i : Nat
  /-- Index into `L` in the mixing loop (rule R30). -/
  j : Nat
  /-- Count of mixing iterations done (rule R30). -/
  k : Nat
  /-- Round number (rule R30). -/
  r : Nat
  deriving DecidableEq, Repr

/-- What the host can do to the engine (rules R9, R198). -/
inductive HostAction where
  /-- Assert reset (rule R190): no packet and no response. -/
  | reset
  /-- Deliver one whole packet (rule R60). -/
  | send (packet : Packet)
  deriving DecidableEq, Repr

/-- The engine's state. -/
structure State where
  /-- The machine's parameters (rules R14 to R16); no step changes them (log 2). -/
  params : Params
  /-- `LIFE` (rule R21). -/
  life : Life
  /-- `CFG.word_bytes`, the word size `u` in bytes (rule R22). -/
  wordBytes : BitVec 8
  /-- `CFG.rounds`, the round count `R` (rule R23). -/
  rounds : BitVec 32
  /-- `CFG.key_bytes_len`, the configured key length `b` (rule R24). -/
  keyBytesLen : BitVec 32
  /-- `KEY`, the stored key (rules R25, R40). -/
  key : List Byte
  /-- `klen`, the length of the stored key (rule R25). -/
  klen : BitVec 32
  /-- `A`, `B`, `KA`, `KB`, `S`, `L`, `BLK` and the counters (rules R27 to R30, R40). -/
  scratch : Scratch
  /-- The sequencer's phase (rule R30), `idle` between commands. -/
  phase : Phase
  /-- The optional cached copy of `S` (rule R34); `none` is invalid. -/
  sCache : Option (List Word)
  /-- Host actions that have arrived and are not yet taken, in arrival order (rules R9, R181; log 8). -/
  inbox : List HostAction
  /-- Responses given, in order: the observation of the run (rule R9; log 8). -/
  outbox : List Packet
  /-- How many times a free value was drawn; the model's own field (log 5). -/
  draws : Nat
  deriving DecidableEq, Repr

/-- Why the machine stops with a fault. -/
inductive Fault where
  /-- A `CONFIGURED` engine's `CFG.word_bytes` is not 2, 4 or 8. Raised by `KSCHED`, `ENCRYPT` and `DECRYPT`, only in states
  that rule R22 rules out and no run reaches; the spec has no constants for such a width. Safe (log 13). -/
  | illegalWordSize
  deriving DecidableEq, Repr

/-- Why the machine gives a command no meaning. -/
inductive Refusal where
  /-- The command has no meaning in the model. Raised by no arm of `exec`. Safe. -/
  | notModelled (mnemonic : String)
  deriving DecidableEq, Repr

/-- Scratch state in `State.reset`. DESIGN CHOICE (log 4): the spec leaves it unspecified (rule R35). -/
def Scratch.reset : Scratch :=
  { a := 0, b := 0, ka := 0, kb := 0, S := [], L := [], blk := [], i := 0, j := 0, k := 0, r := 0 }

/-- The state just after a reset, the initial state of every run (rules R35, R191): `LIFE` unconfigured, `phase` idle,
cache invalid. The configuration and key registers are DESIGN CHOICE (log 3), the parameters DESIGN CHOICE (log 1). -/
def State.reset : State :=
  { params := Params.default, life := .unconfigured, wordBytes := 0, rounds := 0, keyBytesLen := 0, key := [], klen := 0,
    scratch := Scratch.reset, phase := .idle, sCache := none, inbox := [], outbox := [], draws := 0 }

end Sys2Proof.Machine
end

