-- ==== Sys2Proof/Machine/WordOps.lean ====
section
/-! DEFINITION. The Word Abstraction (41_word_ops.md): width arithmetic, the little-endian codec, the datapath operations
and the magic constants. Every operation reads the low `W` bits of its word operands and returns a `W`-bit word
zero-extended to the physical register (rule R27). -/

namespace Sys2Proof

/-- `W` (rule R10). -/
def Width.bits : Width → Nat
  | .w16 => 16
  | .w32 => 32
  | .w64 => 64

/-- `u` (rule R10). -/
def Width.bytes : Width → Nat
  | .w16 => 2
  | .w32 => 4
  | .w64 => 8

/-- The word size a `word_bytes` value names: 2, 4 and 8 are the legal ones (rule R22). -/
def Width.ofBytes? (wordBytes : BitVec 8) : Option Width :=
  if wordBytes = 2 then some .w16 else if wordBytes = 4 then some .w32 else if wordBytes = 8 then some .w64 else none

namespace Machine

/-- The architectural bits of a register (rule R27). -/
def low (w : Width) (x : Word) : BitVec w.bits := x.setWidth w.bits

/-- A `W`-bit word in a physical register (rule R27). -/
def reg (w : Width) (v : BitVec w.bits) : Word := v.setWidth 64

/-- A natural number taken as a word, modulo `2^W` (rules R17, R118). -/
def wordOfNat (w : Width) (n : Nat) : Word := reg w (BitVec.ofNat w.bits n)

/-- The number a byte sequence stands for, lowest offset least significant (rules R43, R96). -/
def leNat : List Byte → Nat
  | [] => 0
  | byte :: rest => byte.toNat + 256 * leNat rest

/-- `LE_DEC_u` (rule R96); every caller gives `u` bytes. -/
def leDec (s : List Byte) : Word := BitVec.ofNat 64 (leNat s)

/-- `LE_ENC_u` (rule R97). -/
def leEnc (w : Width) (x : Word) : List Byte := (List.range w.bytes).map fun n => x.extractLsb' (8 * n) 8

/-- `ADD_W` (rule R98). -/
def addW (w : Width) (x y : Word) : Word := reg w (low w x + low w y)

/-- `SUB_W` (rule R99). -/
def subW (w : Width) (x y : Word) : Word := reg w (low w x - low w y)

/-- `MUL_W` (rule R100). -/
def mulW (w : Width) (x y : Word) : Word := reg w (low w x * low w y)

/-- `ROTL_W` (rule R101): only the amount modulo `W` matters. -/
def rotlW (w : Width) (x n : Word) : Word := reg w ((low w x).rotateLeft (n.toNat % w.bits))

/-- `ROTR_W` (rule R102): the amount rule is that of `ROTL_W`. -/
def rotrW (w : Width) (x n : Word) : Word := reg w ((low w x).rotateRight (n.toNat % w.bits))

/-- `XOR_W` (rule R103). -/
def xorW (w : Width) (x y : Word) : Word := reg w (low w x ^^^ low w y)

/-- `P_W` (rule R104). -/
def magicP : Width → Word
  | .w16 => 0xB7E1
  | .w32 => 0xB7E15163
  | .w64 => 0xB7E151628AED2A6B

/-- `Q_W` (rule R104); the 64-bit one is the parameter `Q64` (rule R15). -/
def magicQ (q64 : Word) : Width → Word
  | .w16 => 0x9E37
  | .w32 => 0x9E3779B9
  | .w64 => q64

end Machine

end Sys2Proof
end

