-- ==== Sys2Proof/Machine/Ops.lean ====
section
/-! DEFINITION. The named operations every command shares: access to the storage spaces (rule R51), the response (rules R70
to R72), ending a command, raising an error (rule R172), the effect of reset (rule R191) and taking a host action. -/

namespace Sys2Proof.Machine

/- Storage spaces (rules R40, R51). A read outside the space's range reads zero or fewer bytes; no step from a state that
meets the invariant makes one. DEDUCED (log 14). -/

/-- `MemRead(KEY, o, n)` and `MemRead(BLK, o, n)`: the `n` consecutive bytes at `o` (rule R51). -/
def readBytes (space : List Byte) (o n : Nat) : List Byte := (space.drop o).take n

/-- `MemRead(S, i)` and `MemRead(L, j)`: one whole word (rules R48, R51). -/
def readTable (table : List Word) (index : Nat) : Word := table.getD index 0

/-- `MemWrite(S, i, v)` and `MemWrite(L, j, v)`: one whole word (rules R48, R51). -/
def writeTable (table : List Word) (index : Nat) (v : Word) : List Word := table.set index v

/-- What a command reports: success, or one of the five errors (rules R71, R165). -/
inductive Status where
  | ok
  /-- Rule R166. -/
  | invalidKeyLength
  /-- Rule R167. -/
  | invalidBlockLength
  /-- Rule R168. -/
  | illegalCommand
  /-- Rule R169. -/
  | invalidConfig
  /-- Rule R170. -/
  | invalidState
  deriving DecidableEq, Repr

/-- The status codes (rule R71). -/
def Status.code : Status → Byte
  | .ok => 0x00
  | .invalidKeyLength => 0x01
  | .invalidBlockLength => 0x02
  | .illegalCommand => 0x03
  | .invalidConfig => 0x04
  | .invalidState => 0x05

/-- A response packet: status, 32-bit little-endian payload length, payload (rule R70). -/
def responsePacket (status : Status) (payload : List Byte) : Packet :=
  status.code :: (bytesOfField (BitVec.ofNat 32 payload.length) ++ payload)

/-- Scratch state that holds no reliable value: every field is a free value (rules R33, R35, R172; log 6). -/
def Scratch.free (draw : Nat) : Scratch :=
  { a := Config.freeWord draw 0, b := Config.freeWord draw 1, ka := Config.freeWord draw 2, kb := Config.freeWord draw 3
    S := Config.freeTable draw 4, L := Config.freeTable draw 5, blk := Config.freeBytes draw 6
    i := Config.freeCounter draw 7, j := Config.freeCounter draw 8, k := Config.freeCounter draw 9
    r := Config.freeCounter draw 10 }

/-- End a command: one response is emitted, the phase returns to idle and scratch state is unspecified from here on (rules
R33, R60, R172). No persistent state is written. -/
def State.respond (s : State) (status : Status) (payload : List Byte) : State :=
  { s with
    outbox := s.outbox ++ [responsePacket status payload]
    phase := .idle
    scratch := Scratch.free s.draws
    draws := s.draws + 1 }

/-- Raise an error, the engine's only exceptional event: the response is the error's status with an empty payload, no
persistent state is written, scratch state is unspecified and the phase is idle (rule R172). There is nothing to return
from: no context is saved and the next packet is processed normally (rule R173). -/
def State.raise (s : State) (error : Status) : State := s.respond error []

/-- The effect of reset (rule R191): `LIFE` unconfigured, phase idle, cache invalid, everything else unspecified, as free
values (rule R35; log 5). Nothing is promised to be erased (rule R193), and reset gives no response (rule R190). -/
def State.hostReset (s : State) : State :=
  { s with
    life := .unconfigured
    phase := .idle
    sCache := none
    wordBytes := Config.freeByte s.draws 11
    rounds := Config.freeWord32 s.draws 12
    keyBytesLen := Config.freeWord32 s.draws 13
    key := Config.freeBytes s.draws 14
    klen := Config.freeWord32 s.draws 15
    scratch := Scratch.free s.draws
    draws := s.draws + 1 }

/-- The state once the first pending host action is taken. -/
def State.takeAction (s : State) : State := { s with inbox := s.inbox.tail }

/-- The state with a packet as the next host action. -/
def State.deliver (s : State) (packet : Packet) : State := { s with inbox := .send packet :: s.inbox }

end Sys2Proof.Machine
end

