-- ==== Sys2Proof/Machine/Flags.lean ====
section
/-! DEFINITION. The engine has no flags and no condition codes (rule R31). What it tests are comparisons of lengths and
limits and the lifecycle bit: the tests of the error order of rule R171. -/

namespace Sys2Proof.Machine

/-- The four configuration tests of `INIT` (rule R86). They raise one error, so their order does not show. -/
def State.configLegal (s : State) (wb : BitVec 8) (rounds kbl : BitVec 32) (key : List Byte) : Bool :=
  (Width.ofBytes? wb).isSome && decide (rounds.toNat ≤ s.params.rMax) && decide (kbl.toNat ≤ s.params.bMax) &&
    decide (key.length ≤ s.params.bMax)

/-- `CheckKey` passes (rule R116): (a) the stored key has the configured length, and (b) that length is a multiple of the
word size. Both raise one error, so their order does not show. -/
def State.keyPasses (s : State) : Bool :=
  decide (s.klen = s.keyBytesLen) && decide (s.klen.toNat % s.wordBytes.toNat = 0)

/-- The block is exactly two words (rule R167). -/
def State.blockPasses (s : State) (block : List Byte) : Bool := decide (block.length = 2 * s.wordBytes.toNat)

end Sys2Proof.Machine
end

