-- ==== Sys2Proof/Machine/Operands.lean ====
section
/-! DEFINITION. The operand forms of the commands: the key and configuration a command reads, the block as two words (rules
R136, R139, R151, R154), and the key schedule as a payload (rule R72). -/

namespace Sys2Proof.Machine

/-- What a command reads of the configuration and the key (rule R115), with the constant `Q64` in force. `key` and `klen`
are the stored key and its length. -/
structure KeyInputs where
  w : Width
  rounds : Nat
  klen : Nat
  key : List Byte
  q64 : Word
  deriving DecidableEq, Repr

/-- The inputs of a configured engine; `none` where `CFG.word_bytes` names no word size, which rule R22 rules out while
`LIFE` is configured (log 13). -/
def State.keyInputs? (s : State) : Option KeyInputs :=
  (Width.ofBytes? s.wordBytes).map fun w =>
    { w := w, rounds := s.rounds.toNat, klen := s.klen.toNat, key := s.key, q64 := s.params.q64 }

/-- `t`, the number of words in `S` (rule R13). -/
def KeyInputs.t (g : KeyInputs) : Nat := 2 * (g.rounds + 1)

/-- `c`, the number of words in `L`; an empty key gives 1 (rule R13). -/
def KeyInputs.c (g : KeyInputs) : Nat := max 1 (g.klen / g.w.bytes)

/-- `n_mix`, the number of mixing iterations (rules R13, R121). -/
def KeyInputs.nMix (g : KeyInputs) : Nat := 3 * max g.t g.c

/-- `DecodeBlock` (rules R136, R151): `A` from bytes `[0, u)`, `B` from bytes `[u, 2u)` of `BLK`. -/
def Scratch.decodeBlock (w : Width) (block : List Byte) (x : Scratch) : Scratch :=
  { x with
    blk := block
    a := leDec (readBytes block 0 w.bytes)
    b := leDec (readBytes block w.bytes w.bytes) }

/-- `EncodeBlock` (rules R139, R154): `A` then `B`, into `BLK`. -/
def Scratch.encodeBlock (w : Width) (x : Scratch) : Scratch := { x with blk := leEnc w x.a ++ leEnc w x.b }

/-- The payload of `KSCHED`: the words of `S` in order, each little-endian (rules R72, R123). -/
def encodeTable (w : Width) (table : List Word) : List Byte := table.flatMap (leEnc w)

end Sys2Proof.Machine
end

