-- ==== Sys2Proof/Machine/KeySchedule.lean ====
section
/-! DEFINITION. The key schedule generator (rules R115 to R122), the cached copy of its result (rule R34) and `KSCHED`
(rule R123). -/

namespace Sys2Proof.Machine

/-- The word that `BuildL` puts in `L[n]` (rule R117); an empty key gives the single word 0. -/
def keyWord (g : KeyInputs) (n : Nat) : Word :=
  if g.klen = 0 then 0 else leDec (readBytes g.key (n * g.w.bytes) g.w.bytes)

/-- `BuildL` (rule R117). -/
def Scratch.buildL (g : KeyInputs) (x : Scratch) : Scratch := { x with L := (List.range g.c).map (keyWord g) }

/-- The word that `InitS` puts in `S[n]` (rule R118). -/
def initWord (g : KeyInputs) (n : Nat) : Word :=
  addW g.w (mulW g.w (wordOfNat g.w n) (magicQ g.q64 g.w)) (magicP g.w)

/-- `InitS` (rule R118). -/
def Scratch.initS (g : KeyInputs) (x : Scratch) : Scratch := { x with S := (List.range g.t).map (initWord g) }

/-- Mixing initial state (rule R119). -/
def Scratch.mixInit (x : Scratch) : Scratch := { x with ka := 0, kb := 0, i := 0, j := 0, k := 0 }

/-- New `KA` of a mixing iteration: the first line of rule R120. -/
def mixA (w : Width) (si ka kb : Word) : Word := rotlW w (addW w (addW w si ka) kb) 3

/-- New `KB` of a mixing iteration: the second line of rule R120, with the `KA` just written both in the sum and in the
rotation amount `KA + KB` (conflict C1). -/
def mixB (w : Width) (lj ka' kb : Word) : Word := rotlW w (addW w (addW w lj ka') kb) (addW w ka' kb)

/-- `MixStep` (rule R120). Both tables are written at the indices that were read, before the indices advance. -/
def Scratch.mixStep (g : KeyInputs) (x : Scratch) : Scratch :=
  let ka := mixA g.w (readTable x.S x.i) x.ka x.kb
  let kb := mixB g.w (readTable x.L x.j) ka x.kb
  { x with
    ka := ka
    kb := kb
    S := writeTable x.S x.i ka
    L := writeTable x.L x.j kb
    i := (x.i + 1) % g.t
    j := (x.j + 1) % g.c
    k := x.k + 1 }

/-- `KeySchedule` (rule R122): the table is left in `S`. -/
def Scratch.keySchedule (g : KeyInputs) (x : Scratch) : Scratch :=
  (Scratch.mixStep g)^[g.nMix] ((x.buildL g).initS g).mixInit

/-- The key schedule table of some inputs (rules R115, R122). What scratch state holds before does not matter (rule R33);
the reset contents stand here for any. -/
def keyTable (g : KeyInputs) : List Word := (Scratch.reset.keySchedule g).S

/-- `S <- KeySchedule()`, from the cached copy where one is valid (rule R34) and recomputed otherwise. -/
def State.schedule (s : State) (g : KeyInputs) (x : Scratch) : Scratch :=
  match s.sCache with
  | some table => { x with S := table }
  | none => x.keySchedule g

/-- What the cache holds once a command has used `table`: the table, where the implementation has a cache (rule R34; log
12). -/
def State.cacheAfterUse (s : State) (table : List Word) : Option (List Word) :=
  match s.params.cache with
  | .never => s.sCache
  | .onUse => some table
  | .atInit => some table

/-- Keep the table a command used (rule R34). -/
def State.keepTable (s : State) (table : List Word) : State := { s with sCache := s.cacheAfterUse table }

/-- `KSCHED` (rule R123). -/
def execKsched (s : State) : Host.Outcome State Fault Refusal :=
  match s.life with
  | .unconfigured => .next (s.raise .invalidState)
  | .configured =>
    if s.keyPasses then
      match s.keyInputs? with
      | none => .fault .illegalWordSize
      | some g =>
        let x := s.schedule g s.scratch
        .next ((s.keepTable x.S).respond .ok (encodeTable g.w x.S))
    else .next (s.raise .invalidKeyLength)

end Sys2Proof.Machine
end

