-- ==== Sys2Proof/Machine/Construct.lean ====
section
/-! DEFINITION. Engine construction: `INIT` (rules R85 to R90). -/

namespace Sys2Proof.Machine

/-- The state with the configuration and key of a successful `INIT` (rule R85). -/
def State.construct (s : State) (wb : BitVec 8) (rounds kbl : BitVec 32) (key : List Byte) : State :=
  { s with
    wordBytes := wb
    rounds := rounds
    keyBytesLen := kbl
    key := key
    klen := BitVec.ofNat 32 key.length
    life := .configured }

/-- What the cache holds after `INIT`: an implementation may fill it only if the key tests would pass, and must not report
their failure (rule R90; log 12). -/
def State.cacheAfterInit (s : State) : Option (List Word) :=
  match s.params.cache with
  | .never => none
  | .onUse => none
  | .atInit => if s.keyPasses then s.keyInputs?.map keyTable else none

/-- Fill the cache at `INIT` where the implementation does (rule R90). -/
def State.fillAtInit (s : State) : State := { s with sCache := s.cacheAfterInit }

/-- `INIT` (rule R85): the lifecycle test, then the configuration tests (rule R86), then the writes. It tests nothing
about the key (rule R87). -/
def execInit (wb : BitVec 8) (rounds kbl : BitVec 32) (key : List Byte) (s : State) : Host.Outcome State Fault Refusal :=
  match s.life with
  | .configured => .next (s.raise .invalidState)
  | .unconfigured =>
    if s.configLegal wb rounds kbl key then
      .next (((s.construct wb rounds kbl key).fillAtInit).respond .ok [])
    else .next (s.raise .invalidConfig)

end Sys2Proof.Machine
end

