-- ==== Sys2Proof/Machine/Decrypt.lean ====
section
/-! DEFINITION. The decryption datapath (rules R151 to R154) and `DECRYPT` (rule R150). -/

namespace Sys2Proof.Machine

/-- One line of a decryption round (rule R152): `x <- XOR(ROTR(SUB(x, k), y), y)`. -/
def decHalf (w : Width) (x y k : Word) : Word := xorW w (rotrW w (subW w x k) y) y

/-- `DecRound(r)` (rule R152): `B` first, then `A` with the `B` just written. -/
def Scratch.decRound (w : Width) (r : Nat) (x : Scratch) : Scratch :=
  let b := decHalf w x.b x.a (readTable x.S (2 * r + 1))
  let a := decHalf w x.a b (readTable x.S (2 * r))
  { x with a := a, b := b, r := r }

/-- `for r = n downto 1: DecRound(r)` (rule R150), descending. -/
def Scratch.decRounds (w : Width) : Nat → Scratch → Scratch
  | 0, x => x
  | n + 1, x => Scratch.decRounds w n (x.decRound w (n + 1))

/-- Post-subtraction, undoing round 0 (rule R153). -/
def Scratch.decPost (w : Width) (x : Scratch) : Scratch :=
  { x with a := subW w x.a (readTable x.S 0), b := subW w x.b (readTable x.S 1) }

/-- The datapath part of `DECRYPT` once `A`, `B` and `S` are loaded: the plaintext is left in `BLK`. -/
def Scratch.decryptLoaded (g : KeyInputs) (x : Scratch) : Scratch :=
  ((Scratch.decRounds g.w g.rounds x).decPost g.w).encodeBlock g.w

/-- `DECRYPT` (rule R150), its tests in the order of rule R171. -/
def execDecrypt (block : List Byte) (s : State) : Host.Outcome State Fault Refusal :=
  match s.life with
  | .unconfigured => .next (s.raise .invalidState)
  | .configured =>
    if s.keyPasses then
      if s.blockPasses block then
        match s.keyInputs? with
        | none => .fault .illegalWordSize
        | some g =>
          let x := s.schedule g (s.scratch.decodeBlock g.w block)
          .next ((s.keepTable x.S).respond .ok (x.decryptLoaded g).blk)
      else .next (s.raise .invalidBlockLength)
    else .next (s.raise .invalidKeyLength)

end Sys2Proof.Machine
end

