-- ==== Sys2Proof/Machine/Encrypt.lean ====
section
/-! DEFINITION. The encryption datapath (rules R136 to R139) and `ENCRYPT` (rule R135). -/

namespace Sys2Proof.Machine

/-- Pre-whitening, round 0 (rule R137). -/
def Scratch.encPre (w : Width) (x : Scratch) : Scratch :=
  { x with a := addW w x.a (readTable x.S 0), b := addW w x.b (readTable x.S 1) }

/-- One line of an encryption round (rule R138): `x <- ADD(ROTL(XOR(x, y), y), k)`. -/
def encHalf (w : Width) (x y k : Word) : Word := addW w (rotlW w (xorW w x y) y) k

/-- `EncRound(r)` (rule R138): the second line uses the `A` the first line wrote. -/
def Scratch.encRound (w : Width) (r : Nat) (x : Scratch) : Scratch :=
  let a := encHalf w x.a x.b (readTable x.S (2 * r))
  let b := encHalf w x.b a (readTable x.S (2 * r + 1))
  { x with a := a, b := b, r := r }

/-- `for r = 1 .. n: EncRound(r)` (rule R135), ascending. -/
def Scratch.encRounds (w : Width) : Nat → Scratch → Scratch
  | 0, x => x
  | n + 1, x => (Scratch.encRounds w n x).encRound w (n + 1)

/-- The datapath part of `ENCRYPT` once `A`, `B` and `S` are loaded: the ciphertext is left in `BLK`. -/
def Scratch.encryptLoaded (g : KeyInputs) (x : Scratch) : Scratch :=
  (Scratch.encRounds g.w g.rounds (x.encPre g.w)).encodeBlock g.w

/-- `ENCRYPT` (rule R135), its tests in the order of rule R171. -/
def execEncrypt (block : List Byte) (s : State) : Host.Outcome State Fault Refusal :=
  match s.life with
  | .unconfigured => .next (s.raise .invalidState)
  | .configured =>
    if s.keyPasses then
      if s.blockPasses block then
        match s.keyInputs? with
        | none => .fault .illegalWordSize
        | some g =>
          let x := s.schedule g (s.scratch.decodeBlock g.w block)
          .next ((s.keepTable x.S).respond .ok (x.encryptLoaded g).blk)
      else .next (s.raise .invalidBlockLength)
    else .next (s.raise .invalidKeyLength)

end Sys2Proof.Machine
end

