-- ==== Sys2Proof/Machine/Dispatch.lean ====
section
/-! DEFINITION. One arm per command (rule R62). -/

namespace Sys2Proof.Machine

def exec (i : Instr) (s : State) : Host.Outcome State Fault Refusal :=
  match i with
  | .init wb rounds kbl key => Sys2Proof.Machine.execInit wb rounds kbl key s
  | .ksched => Sys2Proof.Machine.execKsched s
  | .encrypt block => Sys2Proof.Machine.execEncrypt block s
  | .decrypt block => Sys2Proof.Machine.execDecrypt block s

end Sys2Proof.Machine
end

