-- ==== Sys2Proof/Machine/Step.lean ====
section
/-! DEFINITION. One step: the engine takes the first pending host action and answers it (rules R7, R8, R53). -/

namespace Sys2Proof.Machine

/-- One atomic transition (rule R7): a reset takes its effect and gives no response (rule R191), a packet is decoded and
its command run (rule R73), an `Illegal` packet is answered `IllegalCommand` (rules R68, R69). With no pending action the
engine is idle and holds its state: DEDUCED from rules R8 and R180 (log 9). -/
def step (s : State) : Host.Outcome State Fault Refusal :=
  match s.inbox with
  | [] => .next s
  | .reset :: _ => .next s.takeAction.hostReset
  | .send packet :: _ =>
    match decode packet with
    | .illegal _ => .next (s.takeAction.raise .illegalCommand)
    | .instr i => exec i s.takeAction

/-- The state in which the next step runs the instruction of an opcode-table word: its packet is the next host action
(log 10). -/
def State.withFetchWord (s : State) (nbits w : Nat) : State := s.deliver (packetOfTableWord nbits w)

end Sys2Proof.Machine
end

