-- ==== Sys2Proof/Machine/Reference.lean ====
section
/-! DEFINITION. The spec's pseudocode read over natural numbers, in which claims about results are stated: a word is a
number below `2^W` (rules R17, R95), a table is a function of its index, a byte sequence a list of numbers. Nothing here
is used by the machine. -/

namespace Sys2Proof.Machine.Ref

/-- `ADD_W` (rule R98). -/
def add (W x y : Nat) : Nat := (x + y) % 2 ^ W

/-- `SUB_W` (rule R99): `x - y` when `x ≥ y` and `x - y + 2^W` otherwise. -/
def sub (W x y : Nat) : Nat := if y ≤ x then x - y else x + 2 ^ W - y

/-- `MUL_W` (rule R100). -/
def mul (W x y : Nat) : Nat := x * y % 2 ^ W

/-- `ROTL_W` (rule R101). -/
def rotl (W x n : Nat) : Nat :=
  if n % W = 0 then x else x * 2 ^ (n % W) % 2 ^ W + x / 2 ^ (W - n % W)

/-- `ROTR_W` (rule R102). -/
def rotr (W x n : Nat) : Nat :=
  if n % W = 0 then x else x / 2 ^ (n % W) + x * 2 ^ (W - n % W) % 2 ^ W

/-- `XOR_W` (rule R103). -/
def xor (x y : Nat) : Nat := x ^^^ y

/-- `LE_DEC_u` of the bytes at offset `o` (rules R43, R96). -/
def leDec (u : Nat) (s : List Nat) (o : Nat) : Nat := ((List.range u).map fun n => s.getD (o + n) 0 * 256 ^ n).sum

/-- `LE_ENC_u` (rule R97). -/
def leEnc (u x : Nat) : List Nat := (List.range u).map fun n => x / 2 ^ (8 * n) % 256

/-- `P_W` by word size in bytes (rule R104). -/
def magicP (u : Nat) : Nat := if u = 2 then 0xB7E1 else if u = 4 then 0xB7E15163 else 0xB7E151628AED2A6B

/-- `Q_W` by word size in bytes, with the parameter `Q64` (rules R15, R104). -/
def magicQ (q64 u : Nat) : Nat := if u = 2 then 0x9E37 else if u = 4 then 0x9E3779B9 else q64

/-- The variables of the mixing loop (rule R119). -/
structure Mix where
  A : Nat
  B : Nat
  S : Nat → Nat
  L : Nat → Nat
  i : Nat
  j : Nat

/-- `MixStep` (rule R120). -/
def mixStep (W t c : Nat) (m : Mix) : Mix :=
  let A := rotl W (add W (add W (m.S m.i) m.A) m.B) 3
  let B := rotl W (add W (add W (m.L m.j) A) m.B) (add W A m.B)
  { A := A, B := B, S := Function.update m.S m.i A, L := Function.update m.L m.j B,
    i := (m.i + 1) % t, j := (m.j + 1) % c }

/-- `KeySchedule` (rules R13, R117 to R122) for word size `u`, round count `R` and a raw key. -/
def keySchedule (u R q64 : Nat) (key : List Nat) : Nat → Nat :=
  let W := 8 * u
  let t := 2 * (R + 1)
  let c := max 1 (key.length / u)
  let start : Mix :=
    { A := 0, B := 0, i := 0, j := 0
      S := fun n => add W (mul W (n % 2 ^ W) (magicQ q64 u)) (magicP u)
      L := fun n => if key.length = 0 then 0 else leDec u key (n * u) }
  ((mixStep W t c)^[3 * max t c] start).S

/-- `EncRound(r)` (rule R138) on the pair `(A, B)`. -/
def encRound (W : Nat) (S : Nat → Nat) (r : Nat) (p : Nat × Nat) : Nat × Nat :=
  let A := add W (rotl W (xor p.1 p.2) p.2) (S (2 * r))
  let B := add W (rotl W (xor p.2 A) A) (S (2 * r + 1))
  (A, B)

/-- `DecRound(r)` (rule R152) on the pair `(A, B)`. -/
def decRound (W : Nat) (S : Nat → Nat) (r : Nat) (p : Nat × Nat) : Nat × Nat :=
  let B := xor (rotr W (sub W p.2 (S (2 * r + 1))) p.1) p.1
  let A := xor (rotr W (sub W p.1 (S (2 * r))) B) B
  (A, B)

/-- `ENCRYPT` of a block under a key schedule (rules R135 to R139). -/
def encrypt (u R : Nat) (S : Nat → Nat) (block : List Nat) : List Nat :=
  let W := 8 * u
  let start := (add W (leDec u block 0) (S 0), add W (leDec u block u) (S 1))
  let p := ((List.range R).map (· + 1)).foldl (fun p r => encRound W S r p) start
  leEnc u p.1 ++ leEnc u p.2

/-- `DECRYPT` of a block under a key schedule (rules R150 to R154). -/
def decrypt (u R : Nat) (S : Nat → Nat) (block : List Nat) : List Nat :=
  let W := 8 * u
  let start := (leDec u block 0, leDec u block u)
  let p := ((List.range R).map (· + 1)).reverse.foldl (fun p r => decRound W S r p) start
  leEnc u (sub W p.1 (S 0)) ++ leEnc u (sub W p.2 (S 1))

/-- The payload of `KSCHED` (rule R72): the `t` words of the table, each in `u` little-endian bytes. -/
def tablePayload (u R : Nat) (S : Nat → Nat) : List Nat := (List.range (2 * (R + 1))).flatMap fun n => leEnc u (S n)

/-- The first error that applies, in the order of the table of rule R171, or `ok`. -/
def status (s : State) : Cmd → Status
  | .illegal _ => .illegalCommand
  | .instr (.init wb rounds kbl key) =>
    if s.life = .configured then .invalidState
    else if ¬(wb.toNat = 2 ∨ wb.toNat = 4 ∨ wb.toNat = 8) ∨ s.params.rMax < rounds.toNat ∨ s.params.bMax < kbl.toNat ∨
      s.params.bMax < key.length then .invalidConfig
    else .ok
  | .instr .ksched =>
    if s.life = .unconfigured then .invalidState
    else if s.klen ≠ s.keyBytesLen ∨ s.klen.toNat % s.wordBytes.toNat ≠ 0 then .invalidKeyLength
    else .ok
  | .instr (.encrypt block) | .instr (.decrypt block) =>
    if s.life = .unconfigured then .invalidState
    else if s.klen ≠ s.keyBytesLen ∨ s.klen.toNat % s.wordBytes.toNat ≠ 0 then .invalidKeyLength
    else if block.length ≠ 2 * s.wordBytes.toNat then .invalidBlockLength
    else .ok

/-- A 32-bit field at offset `o` of a packet (rule R67). -/
def field32 (p : Packet) (o : Nat) : Nat :=
  (p.getD o 0).toNat + 256 * (p.getD (o + 1) 0).toNat + 65536 * (p.getD (o + 2) 0).toNat +
    16777216 * (p.getD (o + 3) 0).toNat

/-- The command of a packet by the offset tables of rules R63 to R66; `none` where no format's well-formedness condition
holds. -/
def command (p : Packet) : Option Instr :=
  if p.head? = some 0x01 ∧ 14 ≤ p.length ∧ p.length = 14 + field32 p 10 then
    some (.init (p.getD 1 0) (BitVec.ofNat 32 (field32 p 2)) (BitVec.ofNat 32 (field32 p 6)) (p.drop 14))
  else if p.head? = some 0x02 ∧ p.length = 1 then some .ksched
  else if p.head? = some 0x03 ∧ 2 ≤ p.length ∧ p.length = 2 + (p.getD 1 0).toNat then some (.encrypt (p.drop 2))
  else if p.head? = some 0x04 ∧ 2 ≤ p.length ∧ p.length = 2 + (p.getD 1 0).toNat then some (.decrypt (p.drop 2))
  else none

/-- The status numbers of the table of rule R71, written out here a second time, apart from the machine's own. -/
def code : Status → Byte
  | .ok => 0x00
  | .invalidKeyLength => 0x01
  | .invalidBlockLength => 0x02
  | .illegalCommand => 0x03
  | .invalidConfig => 0x04
  | .invalidState => 0x05

/-- The error response: its status code and an empty payload (rules R70, R72, R172). -/
def errorPacket (code : Byte) : Packet := [code, 0, 0, 0, 0]

end Sys2Proof.Machine.Ref
end

