-- ==== Sys2Proof/Machine/Sequencer.lean ====
section
/-! DEFINITION. The iteration-level engine of rule R7: the sequencer of rule R30 taking a command through the phases of
rules R125, R142 and R158, one loop iteration a tick. It is built from the same operations as the atomic commands. The
command being run is an argument, because its packet is passed by value and is no state (rule R36). The step of the
machine stays the atomic one (log 11). -/

namespace Sys2Proof.Machine

/-- The host's packet is accepted: idle to `CHECK`. -/
def State.startCommand (s : State) : State := { s with phase := .check }

/-- One step of `KS_L`: the next word of `BuildL` (rule R117). -/
def Scratch.pushL (g : KeyInputs) (x : Scratch) : Scratch := { x with L := x.L ++ [keyWord g x.L.length] }

/-- One step of `KS_S`: the next word of `InitS` (rule R118). -/
def Scratch.pushS (g : KeyInputs) (x : Scratch) : Scratch := { x with S := x.S ++ [initWord g x.S.length] }

/-- Where the sequencer goes once `S` is ready (rules R125, R142, R158); `DEC_RND` is skipped when `R = 0`. -/
def State.afterSchedule (g : KeyInputs) (i : Instr) (s : State) : State :=
  match i with
  | .init _ _ _ _ => s
  | .ksched => { s with phase := .out }
  | .encrypt _ => { s with phase := .encPre }
  | .decrypt _ =>
    if g.rounds = 0 then { s with phase := .decPost }
    else { s with phase := .decRnd, scratch := { s.scratch with r := g.rounds } }

/-- The tests have passed: load what the command loads and start the key schedule (rule R125), or take the cached table
(rule R34). -/
def State.enterSchedule (g : KeyInputs) (i : Instr) (x : Scratch) (s : State) : State :=
  match s.sCache with
  | some table => State.afterSchedule g i { s with scratch := { x with S := table } }
  | none => { s with phase := .ksL, scratch := { x with L := [] } }

/-- `CHECK`: the tests of the command in the order of rule R171; an error goes straight to idle (rules R125, R142, R158).
`INIT` has no loop and ends here (log 11). -/
def State.tickCheck (i : Instr) (s : State) : Host.Outcome State Fault Refusal :=
  match i with
  | .init wb rounds kbl key => execInit wb rounds kbl key s
  | .ksched =>
    match s.life with
    | .unconfigured => .next (s.raise .invalidState)
    | .configured =>
      if s.keyPasses then
        match s.keyInputs? with
        | none => .fault .illegalWordSize
        | some g => .next (s.enterSchedule g i s.scratch)
      else .next (s.raise .invalidKeyLength)
  | .encrypt block | .decrypt block =>
    match s.life with
    | .unconfigured => .next (s.raise .invalidState)
    | .configured =>
      if s.keyPasses then
        if s.blockPasses block then
          match s.keyInputs? with
          | none => .fault .illegalWordSize
          | some g => .next (s.enterSchedule g i (s.scratch.decodeBlock g.w block))
        else .next (s.raise .invalidBlockLength)
      else .next (s.raise .invalidKeyLength)

/-- `OUT`: the response, from `S` for `KSCHED` (rule R123) and from `A` and `B` for the block commands (rules R139, R154). -/
def State.tickOut (g : KeyInputs) (i : Instr) (s : State) : State :=
  let payload :=
    match i with
    | .init _ _ _ _ => []
    | .ksched => encodeTable g.w s.scratch.S
    | .encrypt _ => (s.scratch.encodeBlock g.w).blk
    | .decrypt _ => (s.scratch.encodeBlock g.w).blk
  (s.keepTable s.scratch.S).respond .ok payload

/-- One tick of a phase after `CHECK` (rules R125, R142, R158). -/
def State.tickLoop (g : KeyInputs) (i : Instr) (s : State) : State :=
  let x := s.scratch
  match s.phase with
  | .idle => s
  | .check => s
  | .ksL =>
    let x := x.pushL g
    if x.L.length < g.c then { s with scratch := x } else { s with phase := .ksS, scratch := { x with S := [] } }
  | .ksS =>
    let x := x.pushS g
    if x.S.length < g.t then { s with scratch := x } else { s with phase := .ksMix, scratch := x.mixInit }
  | .ksMix =>
    let x := x.mixStep g
    if x.k < g.nMix then { s with scratch := x } else State.afterSchedule g i { s with scratch := x }
  | .encPre =>
    let x := x.encPre g.w
    if g.rounds = 0 then { s with phase := .out, scratch := x }
    else { s with phase := .encRnd, scratch := { x with r := 1 } }
  | .encRnd =>
    let x := x.encRound g.w x.r
    if x.r < g.rounds then { s with scratch := { x with r := x.r + 1 } } else { s with phase := .out, scratch := x }
  | .decRnd =>
    let x := x.decRound g.w x.r
    if 1 < x.r then { s with scratch := { x with r := x.r - 1 } } else { s with phase := .decPost, scratch := x }
  | .decPost => { s with phase := .out, scratch := x.decPost g.w }
  | .out => s.tickOut g i

/-- One tick of the sequencer on the command `i`. -/
def State.tick (i : Instr) (s : State) : Host.Outcome State Fault Refusal :=
  match s.phase with
  | .idle => .next s
  | .check => s.tickCheck i
  | .ksL | .ksS | .ksMix | .encPre | .encRnd | .decRnd | .decPost | .out =>
    match s.keyInputs? with
    | none => .fault .illegalWordSize
    | some g => .next (s.tickLoop g i)

/-- `n` ticks on one command. -/
def State.ticks (i : Instr) : Nat → State → Host.Outcome State Fault Refusal
  | 0, s => .next s
  | n + 1, s =>
    match s.tick i with
    | .next s' => State.ticks i n s'
    | .fault f => .fault f
    | .refused r => .refused r

/-- The ticks the key schedule takes: `c` key-word loads, `t` initialisations and `n_mix` iterations, or none with a valid
cache (rule R200). -/
def State.scheduleTicks (s : State) (g : KeyInputs) : Nat :=
  match s.sCache with
  | some _ => 0
  | none => g.c + g.t + g.nMix

/-- The ticks of a command whose tests pass, from `CHECK` to idle (rule R200). -/
def State.workTicks (s : State) (g : KeyInputs) : Instr → Nat
  | .init _ _ _ _ => 1
  | .ksched => 1 + s.scheduleTicks g + 1
  | .encrypt _ => 1 + s.scheduleTicks g + (1 + g.rounds) + 1
  | .decrypt _ => 1 + s.scheduleTicks g + (g.rounds + 1) + 1

end Sys2Proof.Machine
end

