-- ==== Sys2Proof/Safety.lean ====
section
/-! DEFINITION. What a good state and a good run are, in the terms claims use. -/

namespace Sys2Proof.Machine

/-- `x` is a word of width `W` (rule R95). -/
abbrev IsWord (w : Width) (x : Word) : Prop := x.toNat < 2 ^ w.bits

/-- `KSCHED`, `ENCRYPT` and `DECRYPT`: the commands that use a constructed engine. -/
def isUse : Instr → Bool
  | .init _ _ _ _ => false
  | .ksched => true
  | .encrypt _ => true
  | .decrypt _ => true

/-- What holds of the configuration of a configured engine (rules R22 to R25, R86). -/
structure State.ConfigOk (s : State) : Prop where
  width : (Width.ofBytes? s.wordBytes).isSome
  rounds : s.rounds.toNat ≤ s.params.rMax
  keyBytesLen : s.keyBytesLen.toNat ≤ s.params.bMax
  klen : s.klen.toNat ≤ s.params.bMax
  key : s.key.length = s.klen.toNat

/-- What holds of a valid cache: it belongs to a lifetime whose key passes, and its value is what rule R122 computes (rule
R34). -/
def State.CacheOk (s : State) : Prop :=
  ∀ table, s.sCache = some table →
    s.life = .configured ∧ s.keyPasses ∧ ∃ g, s.keyInputs? = some g ∧ table = keyTable g

/-- What holds of the persistent state at all times, within a command too. -/
structure State.PersistentOk (s : State) : Prop where
  params : s.params.Legal
  config : s.life = .configured → s.ConfigOk
  cache : s.CacheOk

/-- The invariant of the machine between commands (rules R14, R22 to R25, R30, R34). -/
structure State.Inv (s : State) : Prop where
  persistent : s.PersistentOk
  idle : s.phase = .idle

/-- `t` and `s` hold the same configuration and key (rules R21 to R25). -/
structure SameConfig (s t : State) : Prop where
  life : t.life = s.life
  wordBytes : t.wordBytes = s.wordBytes
  rounds : t.rounds = s.rounds
  keyBytesLen : t.keyBytesLen = s.keyBytesLen
  key : t.key = s.key
  klen : t.klen = s.klen
  params : t.params = s.params

/-- `t` is `s` after one response and nothing else persistent: same configuration, same pending actions, one packet more,
phase idle. Scratch state is unspecified (rule R33). -/
structure AnsweredWith (s t : State) (response : Packet) : Prop where
  config : SameConfig s t
  inbox : t.inbox = s.inbox
  outbox : t.outbox = s.outbox ++ [response]
  phase : t.phase = .idle

/-- `AnsweredWith` the error's number of rule R71 and no payload, and the cache is as it was: what an error leaves (rule
R172). -/
structure RejectedWith (s t : State) (error : Status) : Prop where
  answered : AnsweredWith s t (Ref.errorPacket (Ref.code error))
  cache : t.sCache = s.sCache

/-- The engine is configured and both key tests pass: the conditions on the state under which `KSCHED`, and a block command
whose block is two words long, executes (rules R116, R123, R135, R150). -/
structure Ready (s : State) : Prop where
  inv : s.Inv
  life : s.life = .configured
  lengths : s.klen = s.keyBytesLen
  words : s.klen.toNat % s.wordBytes.toNat = 0

/-- The stored key as numbers. -/
def State.keyNat (s : State) : List Nat := s.key.map BitVec.toNat

/-- The reference key schedule of a state's configuration and key (rule R122). -/
def State.refTable (s : State) : Nat → Nat :=
  Ref.keySchedule s.wordBytes.toNat s.rounds.toNat s.params.q64.toNat s.keyNat

/-- `n` steps of the machine. -/
def State.runSteps (n : Nat) (s : State) : Host.Outcome State Fault Refusal := Host.Core.run Sys2Proof.core n s

/-- A host that sends these packets, in this order, to the state `s` (rules R9, R181). -/
def State.sending (s : State) (packets : List Packet) : State := { s with inbox := packets.map .send }

/-- Two states the host cannot tell apart by any further action (rules R9, R192): the same responses so far, pending
actions, limits and lifecycle, and, once configured, the same configuration and key. Scratch state, the cache and its
policy, the free-value counter and, while unconfigured, the configuration and key registers may differ. -/
structure Indistinguishable (s t : State) : Prop where
  rMax : s.params.rMax = t.params.rMax
  bMax : s.params.bMax = t.params.bMax
  q64 : s.params.q64 = t.params.q64
  life : s.life = t.life
  inbox : s.inbox = t.inbox
  outbox : s.outbox = t.outbox
  config : s.life = .configured →
    s.wordBytes = t.wordBytes ∧ s.rounds = t.rounds ∧ s.keyBytesLen = t.keyBytesLen ∧ s.key = t.key ∧ s.klen = t.klen

/-- What holds inside the sequencer, phase by phase: every index of the next tick is inside its table and every counter in
its range (rules R30, R51), what has been built so far is what the rules build, whatever scratch state held before (rule
R33), and past the mixing loop `S` is the key schedule. -/
def PhaseOk (g : KeyInputs) (s : State) : Prop :=
  let x := s.scratch
  match s.phase with
  | .idle => True
  | .check => True
  | .ksL => x.L.length < g.c ∧ x.L = (List.range x.L.length).map (keyWord g)
  | .ksS =>
    x.S.length < g.t ∧ x.S = (List.range x.S.length).map (initWord g) ∧ x.L = (List.range g.c).map (keyWord g)
  | .ksMix =>
    x.L.length = g.c ∧ x.S.length = g.t ∧ x.i < g.t ∧ x.j < g.c ∧ x.k < g.nMix ∧
      ((Scratch.mixStep g)^[g.nMix - x.k] x).S = keyTable g
  | .encPre => x.S.length = g.t ∧ x.S = keyTable g
  | .encRnd => x.S.length = g.t ∧ x.S = keyTable g ∧ 1 ≤ x.r ∧ x.r ≤ g.rounds
  | .decRnd => x.S.length = g.t ∧ x.S = keyTable g ∧ 1 ≤ x.r ∧ x.r ≤ g.rounds
  | .decPost => x.S.length = g.t ∧ x.S = keyTable g
  | .out => x.S.length = g.t ∧ x.S = keyTable g

/-- The invariant of the iteration-level engine: the persistent state is good, and within a command past `CHECK` the
engine is configured, its key passes and the phase is good. -/
structure State.SequencerInv (s : State) : Prop where
  persistent : s.PersistentOk
  running : s.phase ≠ .idle → s.phase ≠ .check →
    s.life = .configured ∧ s.keyPasses ∧ ∃ g, s.keyInputs? = some g ∧ PhaseOk g s

/-- The phase that follows the key schedule in a command under this round count (rules R125, R142, R158): `DEC_RND` is
skipped when `R = 0`. `INIT` has no key schedule. -/
def phasesAfterSchedule (rounds : Nat) : Instr → List Phase
  | .init _ _ _ _ => []
  | .ksched => [.out]
  | .encrypt _ => [.encPre]
  | .decrypt _ => if rounds = 0 then [.decPost] else [.decRnd]

/-- The phase that follows `CHECK`: idle for an error (rules R125, R142, R158) and for `INIT`, which has no loop (log 11);
the first loop of the key schedule otherwise, or past it where the cache is valid (rule R34, log 12). -/
def State.phasesAfterCheck (s : State) (i : Instr) : List Phase :=
  if isUse i ∧ Ref.status s (.instr i) = .ok then
    match s.sCache with
    | some _ => phasesAfterSchedule s.rounds.toNat i
    | none => [.ksL]
  else [.idle]

/-- The phases that may follow the phase of a state inside a command (rules R125, R142, R158); `ENC_RND` and `DEC_RND` are
skipped when `R = 0`. -/
def State.phasesAfter (s : State) (i : Instr) : List Phase :=
  match s.phase with
  | .idle => [.idle]
  | .check => s.phasesAfterCheck i
  | .ksL => [.ksL, .ksS]
  | .ksS => [.ksS, .ksMix]
  | .ksMix => .ksMix :: phasesAfterSchedule s.rounds.toNat i
  | .encPre => if s.rounds.toNat = 0 then [.out] else [.encRnd]
  | .encRnd => [.encRnd, .out]
  | .decRnd => [.decRnd, .decPost]
  | .decPost => [.out]
  | .out => [.idle]

/-- How a tick counts the rounds `1, 2, .., R` of `ENC_RND` and `R, R-1, .., 1` of `DEC_RND` (rules R142, R158). -/
structure RoundsCounted (s t : State) : Prop where
  encFirst : s.phase = .encPre → t.phase = .encRnd → t.scratch.r = 1
  encMore : s.phase = .encRnd → (t.phase = .encRnd ↔ s.scratch.r < s.rounds.toNat)
  encNext : s.phase = .encRnd → t.phase = .encRnd → t.scratch.r = s.scratch.r + 1
  decFirst : s.phase ≠ .decRnd → t.phase = .decRnd → t.scratch.r = s.rounds.toNat
  decMore : s.phase = .decRnd → (t.phase = .decRnd ↔ 1 < s.scratch.r)
  decNext : s.phase = .decRnd → t.phase = .decRnd → t.scratch.r = s.scratch.r - 1

end Sys2Proof.Machine
end

