-- ==== Sys2Proof/Certificates/Slice0/Obligations.lean ====
section
/-! DEFINITION. The statements about the engine. Each docstring names the rule it formalises. -/

open Sys2Proof Sys2Proof.Machine

/- ## Encoding (30_encoding.md) -/

/-- Packets written out from the tables of rules R63 to R66 and the examples of rules R85, R123, R135, R150 decode to the
commands they stand for, and reserved opcodes are refused. -/
def Obligations.SpecPacketsDecodeToTheirCommands : Prop :=
  decode [0x01, 0x04, 0x0C, 0, 0, 0, 0x10, 0, 0, 0, 2, 0, 0, 0, 0xAA, 0xBB] = .instr (.init 4 12 16 [0xAA, 0xBB]) ∧
  decode [0x02] = .instr .ksched ∧
  decode [0x03, 0x08, 0x00, 0x11, 0x22, 0x33, 0x44, 0x55, 0x66, 0x77] =
    .instr (.encrypt [0x00, 0x11, 0x22, 0x33, 0x44, 0x55, 0x66, 0x77]) ∧
  decode [0x04, 0x04, 0x65, 0x78, 0xF4, 0x33] = .instr (.decrypt [0x65, 0x78, 0xF4, 0x33]) ∧
  decode [0x00] = .illegal .reservedOpcode ∧ decode [0x05, 1, 2] = .illegal .reservedOpcode

/-- Decoding the packet of a command value gives the command back (rule R73). -/
def Obligations.EncodeThenDecodeGivesTheCommandBack : Prop :=
  ∀ i : Instr, i.wf → decode (encode i) = .instr i

/-- A packet that decodes to a command is the one packet of that command value (rule R73). -/
def Obligations.DecodedPacketIsTheOneEncoding : Prop :=
  ∀ (p : Packet) (i : Instr), decode p = .instr i → i.wf ∧ encode i = p

/-- The decoder reads each format's fields at the offsets of its table and accepts exactly the lengths its
well-formedness condition allows (rules R63 to R67); every other packet is `Illegal`, as empty, reserved or malformed. -/
def Obligations.DecoderFollowsTheFormatTables : Prop :=
  ∀ p : Packet,
    (∀ i, Ref.command p = some i → decode p = .instr i) ∧
    (Ref.command p = none →
      (p = [] → decode p = .illegal .emptyPacket) ∧
      (∀ op rest, p = op :: rest →
        decode p = .illegal (if 1 ≤ op.toNat ∧ op.toNat ≤ 4 then .malformed else .reservedOpcode)))

/-- A byte stream that begins with a well-formed packet shows its length in byte 0 and the length field, and the lengths
are those of rule R74. -/
def Obligations.PacketLengthIsFoundFromTheHeader : Prop :=
  ∀ (i : Instr) (rest : List Byte), i.wf →
    packetLength (encode i ++ rest) = some (encode i).length ∧
    (encode i).length =
      match i with
      | .init _ _ _ key => 14 + key.length
      | .ksched => 1
      | .encrypt block => 2 + block.length
      | .decrypt block => 2 + block.length

/- ## A step -/

/-- A step on a packet that decodes to a command is `exec` of that command, with the packet taken off the pending
actions. The second clause is the model's own choice, of which the spec says nothing: `withFetchWord` delivers the packet
of an opcode-table word (log 10), whose missing bits are zero (log 17), so that the next step runs the word's instruction
at the same state. -/
def Obligations.StepRunsTheDecodedCommand : Prop :=
  (∀ (s : State) (p : Packet) (rest : List HostAction) (i : Instr),
    s.inbox = .send p :: rest → decode p = .instr i → step s = exec i { s with inbox := rest }) ∧
  (∀ (s : State) (nbits w : Nat) (i : Instr),
    decodeTableWord nbits w = some i → step (s.withFetchWord nbits w) = exec i s)

/-- With no pending host action a step changes nothing. The model's choice (log 9), read from rules R8 and R180. -/
def Obligations.IdleEngineHoldsItsState : Prop :=
  ∀ s : State, s.inbox = [] → step s = .next s

/-- An empty packet, a reserved opcode and a malformed packet are answered `IllegalCommand` in any engine state, and
change no state (rules R68, R69, R168). The status is written out, `0x03` (rule R71). -/
def Obligations.IllegalPacketsAreAnsweredIllegalCommand : Prop :=
  ∀ (s : State) (p : Packet) (rest : List HostAction), s.inbox = .send p :: rest → Ref.command p = none →
    ∃ t, step s = .next t ∧ RejectedWith { s with inbox := rest } t .illegalCommand ∧
      t.outbox = s.outbox ++ [[0x03, 0, 0, 0, 0]]

/-- Reset makes the engine unconfigured and idle with an invalid cache and gives no response; the initial state of a run
is such a state (rules R190, R191). Everything else the spec leaves unspecified. -/
def Obligations.ResetEndsTheLifetime : Prop :=
  (∀ (s : State) (rest : List HostAction), s.inbox = .reset :: rest →
    ∃ t, step s = .next t ∧ t.life = .unconfigured ∧ t.phase = .idle ∧ t.sCache = none ∧
      t.outbox = s.outbox ∧ t.inbox = rest ∧ t.params = s.params) ∧
  State.reset.life = .unconfigured ∧ State.reset.phase = .idle ∧ State.reset.sCache = none

/- ## Commands -/

/-- `INIT` follows its pseudocode (rules R85, R86, R89): `InvalidState` when configured, `InvalidConfig` when a field is
illegal, and otherwise the configuration and the key are stored, the engine is configured and the answer is `OK` with an
empty payload, whatever the key. -/
def Obligations.InitFollowsItsPseudocode : Prop :=
  ∀ (s : State) (wb : BitVec 8) (rounds kbl : BitVec 32) (key : List Byte),
    (s.life = .configured → ∃ t, exec (.init wb rounds kbl key) s = .next t ∧ RejectedWith s t .invalidState) ∧
    (s.life = .unconfigured →
      (wb ≠ 2 ∧ wb ≠ 4 ∧ wb ≠ 8) ∨ s.params.rMax < rounds.toNat ∨ s.params.bMax < kbl.toNat ∨ s.params.bMax < key.length →
      ∃ t, exec (.init wb rounds kbl key) s = .next t ∧ RejectedWith s t .invalidConfig) ∧
    (s.life = .unconfigured → s.params.Legal → wb = 2 ∨ wb = 4 ∨ wb = 8 → rounds.toNat ≤ s.params.rMax →
      kbl.toNat ≤ s.params.bMax → key.length ≤ s.params.bMax →
      ∃ t, exec (.init wb rounds kbl key) s = .next t ∧ t.life = .configured ∧ t.wordBytes = wb ∧ t.rounds = rounds ∧
        t.keyBytesLen = kbl ∧ t.key = key ∧ t.klen.toNat = key.length ∧ t.params = s.params ∧ t.phase = .idle ∧
        t.inbox = s.inbox ∧ t.outbox = s.outbox ++ [[0x00, 0, 0, 0, 0]])

/-- After an accepted `INIT` whose key has the configured length, a multiple of the word size, the engine is ready to run
the other commands (rule R194). -/
def Obligations.BootMakesTheEngineReady : Prop :=
  ∀ (s : State) (wb : BitVec 8) (rounds kbl : BitVec 32) (key : List Byte), s.Inv → s.life = .unconfigured →
    wb = 2 ∨ wb = 4 ∨ wb = 8 → rounds.toNat ≤ s.params.rMax → kbl.toNat ≤ s.params.bMax →
    key.length = kbl.toNat → key.length % wb.toNat = 0 →
    ∃ t, exec (.init wb rounds kbl key) s = .next t ∧ Ready t

/-- An engine built with a key of the wrong length, or of a length that is no multiple of the word size, is constructed
with `OK`, and from then on, whatever packets it has answered since, every `KSCHED`, `ENCRYPT` and `DECRYPT` answers
`InvalidKeyLength` (rule R87). -/
def Obligations.BadKeyEngineIsUselessUntilReset : Prop :=
  ∀ (s : State) (wb : BitVec 8) (rounds kbl : BitVec 32) (key : List Byte), s.Inv → s.life = .unconfigured →
    wb = 2 ∨ wb = 4 ∨ wb = 8 → rounds.toNat ≤ s.params.rMax → kbl.toNat ≤ s.params.bMax → key.length ≤ s.params.bMax →
    key.length ≠ kbl.toNat ∨ key.length % wb.toNat ≠ 0 →
    ∃ t, exec (.init wb rounds kbl key) s = .next t ∧ t.outbox = s.outbox ++ [[0x00, 0, 0, 0, 0]] ∧
      ∀ packets : List Packet, ∃ t', State.runSteps packets.length (t.sending packets) = .next t' ∧
        t'.life = .configured ∧
        ∀ i, isUse i → ∃ t'', exec i t' = .next t'' ∧ RejectedWith t' t'' .invalidKeyLength

/-- `KSCHED` follows its pseudocode (rule R123): `InvalidState` when unconfigured; `InvalidKeyLength` when a key test fails;
and otherwise `OK` with the `t` words of the key schedule that the pseudocode of rules R117 to R122, read over natural
numbers, computes from the key, the word size and the round count. -/
def Obligations.KschedFollowsItsPseudocode : Prop :=
  ∀ s : State,
    (s.life = .unconfigured → ∃ t, exec .ksched s = .next t ∧ RejectedWith s t .invalidState) ∧
    (s.life = .configured → s.klen ≠ s.keyBytesLen ∨ s.klen.toNat % s.wordBytes.toNat ≠ 0 →
      ∃ t, exec .ksched s = .next t ∧ RejectedWith s t .invalidKeyLength) ∧
    (Ready s →
      ∃ t payload, exec .ksched s = .next t ∧ AnsweredWith s t (responsePacket .ok payload) ∧
        payload.map BitVec.toNat = Ref.tablePayload s.wordBytes.toNat s.rounds.toNat s.refTable)

/-- `ENCRYPT` follows its pseudocode (rule R135): `InvalidState` when unconfigured; `InvalidKeyLength` when a key test fails,
whatever the block; `InvalidBlockLength` when the block is not two words; and otherwise `OK` with the ciphertext that the
pseudocode, read over natural numbers, computes from the key, the word size, the round count and the block. -/
def Obligations.EncryptFollowsItsPseudocode : Prop :=
  ∀ (s : State) (block : List Byte),
    (s.life = .unconfigured → ∃ t, exec (.encrypt block) s = .next t ∧ RejectedWith s t .invalidState) ∧
    (s.life = .configured → s.klen ≠ s.keyBytesLen ∨ s.klen.toNat % s.wordBytes.toNat ≠ 0 →
      ∃ t, exec (.encrypt block) s = .next t ∧ RejectedWith s t .invalidKeyLength) ∧
    (s.life = .configured → s.klen = s.keyBytesLen → s.klen.toNat % s.wordBytes.toNat = 0 →
      block.length ≠ 2 * s.wordBytes.toNat →
      ∃ t, exec (.encrypt block) s = .next t ∧ RejectedWith s t .invalidBlockLength) ∧
    (Ready s → block.length = 2 * s.wordBytes.toNat →
      ∃ t payload, exec (.encrypt block) s = .next t ∧ AnsweredWith s t (responsePacket .ok payload) ∧
        payload.map BitVec.toNat =
          Ref.encrypt s.wordBytes.toNat s.rounds.toNat s.refTable (block.map BitVec.toNat))

/-- `DECRYPT` follows its pseudocode (rule R150): `InvalidState` when unconfigured; `InvalidKeyLength` when a key test fails,
whatever the block; `InvalidBlockLength` when the block is not two words; and otherwise `OK` with the plaintext that the
pseudocode, read over natural numbers, computes from the key, the word size, the round count and the block. -/
def Obligations.DecryptFollowsItsPseudocode : Prop :=
  ∀ (s : State) (block : List Byte),
    (s.life = .unconfigured → ∃ t, exec (.decrypt block) s = .next t ∧ RejectedWith s t .invalidState) ∧
    (s.life = .configured → s.klen ≠ s.keyBytesLen ∨ s.klen.toNat % s.wordBytes.toNat ≠ 0 →
      ∃ t, exec (.decrypt block) s = .next t ∧ RejectedWith s t .invalidKeyLength) ∧
    (s.life = .configured → s.klen = s.keyBytesLen → s.klen.toNat % s.wordBytes.toNat = 0 →
      block.length ≠ 2 * s.wordBytes.toNat →
      ∃ t, exec (.decrypt block) s = .next t ∧ RejectedWith s t .invalidBlockLength) ∧
    (Ready s → block.length = 2 * s.wordBytes.toNat →
      ∃ t payload, exec (.decrypt block) s = .next t ∧ AnsweredWith s t (responsePacket .ok payload) ∧
        payload.map BitVec.toNat =
          Ref.decrypt s.wordBytes.toNat s.rounds.toNat s.refTable (block.map BitVec.toNat))

/-- The frame of `KSCHED`, `ENCRYPT` and `DECRYPT`: whatever they answer, they write no configuration and no key, take no
pending action, leave the phase idle, append exactly one response, and touch the cache only where the implementation has
one (rules R26, R34, R123, R135, R150). -/
def Obligations.UsesWriteNoPersistentState : Prop :=
  ∀ (s t : State) (i : Instr), isUse i → exec i s = .next t →
    (∃ response, AnsweredWith s t response) ∧ (s.params.cache = .never → t.sCache = s.sCache)

/-- `DECRYPT` undoes `ENCRYPT`, and `ENCRYPT` undoes `DECRYPT`, on every block of two words, in lifetimes with the same
key, word size and round count (rule R155). The second half, `ENCRYPT` of `DECRYPT`, is the spec's own inference: rule
R155 marks it derived from rule R140. -/
def Obligations.DecryptUndoesEncryptAndBack : Prop :=
  ∀ (s s' : State) (p : List Byte), Ready s → Ready s' → s'.wordBytes = s.wordBytes → s'.rounds = s.rounds →
    s'.key = s.key → s'.params.q64 = s.params.q64 → p.length = 2 * s.wordBytes.toNat →
    (∃ q t t', exec (.encrypt p) s = .next t ∧ t.outbox = s.outbox ++ [responsePacket .ok q] ∧
      exec (.decrypt q) s' = .next t' ∧ t'.outbox = s'.outbox ++ [responsePacket .ok p]) ∧
    (∃ q t t', exec (.decrypt p) s = .next t ∧ t.outbox = s.outbox ++ [responsePacket .ok q] ∧
      exec (.encrypt q) s' = .next t' ∧ t'.outbox = s'.outbox ++ [responsePacket .ok p])

/-- `ENCRYPT` is a bijection on blocks of two words that depends only on the key, the word size, the round count and the
block, and `DECRYPT` is its inverse (rule R140): one function and its inverse answer for every engine with the same
configuration and key. -/
def Obligations.EncryptIsABijectionOnBlocks : Prop :=
  ∀ s : State, Ready s →
    ∃ f g : List Byte → List Byte,
      (∀ s' : State, Ready s' → s'.wordBytes = s.wordBytes → s'.rounds = s.rounds → s'.key = s.key →
        s'.params.q64 = s.params.q64 → ∀ p, p.length = 2 * s.wordBytes.toNat →
        (∃ t, exec (.encrypt p) s' = .next t ∧ t.outbox = s'.outbox ++ [responsePacket .ok (f p)]) ∧
        (∃ t, exec (.decrypt p) s' = .next t ∧ t.outbox = s'.outbox ++ [responsePacket .ok (g p)])) ∧
      (∀ p, p.length = 2 * s.wordBytes.toNat →
        (f p).length = 2 * s.wordBytes.toNat ∧ (g p).length = 2 * s.wordBytes.toNat ∧ g (f p) = p ∧ f (g p) = p) ∧
      (∀ p p', p.length = 2 * s.wordBytes.toNat → p'.length = 2 * s.wordBytes.toNat → f p = f p' → p = p') ∧
      (∀ q, q.length = 2 * s.wordBytes.toNat → ∃ p, p.length = 2 * s.wordBytes.toNat ∧ f p = q)

/- ## The key schedule (42_key_schedule.md) -/

/-- `BuildL` (rule R117): an empty key gives `L = [0]`; otherwise `L` has `klen / u` words and word `n` is the
little-endian value of key bytes `n·u` to `n·u + u - 1`. Nothing else is written. -/
def Obligations.ExpandedKeyIsTheKeyInWords : Prop :=
  ∀ (g : KeyInputs) (x : Scratch), g.key.length = g.klen → g.klen % g.w.bytes = 0 →
    (g.klen = 0 → (x.buildL g).L = [0]) ∧
    (g.klen ≠ 0 → (x.buildL g).L.length = g.klen / g.w.bytes ∧
      ∀ n, n < g.klen / g.w.bytes →
        ((x.buildL g).L.getD n 0).toNat = Ref.leDec g.w.bytes (g.key.map BitVec.toNat) (n * g.w.bytes)) ∧
    x.buildL g = { x with L := (x.buildL g).L }

/-- `InitS` (rule R118): `t` words, word `n` is `(n mod 2^W)·Q + P` modulo `2^W`; `S[0] = P` and each word is the one before
plus `Q`. Nothing else is written. The last two, the equivalent form, are the spec's own inference: rule R118 marks
them derived from rules R98 and R100. -/
def Obligations.InitialTableIsAnArithmeticProgression : Prop :=
  ∀ (g : KeyInputs) (x : Scratch),
    (x.initS g).S.length = 2 * (g.rounds + 1) ∧
    (∀ n, n < 2 * (g.rounds + 1) →
      ((x.initS g).S.getD n 0).toNat =
        Ref.add g.w.bits (Ref.mul g.w.bits (n % 2 ^ g.w.bits) (magicQ g.q64 g.w).toNat) (magicP g.w).toNat) ∧
    (x.initS g).S.getD 0 0 = magicP g.w ∧
    (∀ n, n + 1 < 2 * (g.rounds + 1) →
      (x.initS g).S.getD (n + 1) 0 = addW g.w ((x.initS g).S.getD n 0) (magicQ g.q64 g.w)) ∧
    x.initS g = { x with S := (x.initS g).S }

/-- `MixStep` (rule R120), over natural numbers: the new `KA` is `S[i] + KA + KB` rotated left by 3; the new `KB` is `L[j] +
KA + KB` rotated left by `KA + KB`, with the new `KA` and the old `KB`; both are written back at the indices read; the
indices advance modulo `t` and `c`. -/
def Obligations.MixStepFollowsItsRule : Prop :=
  ∀ (g : KeyInputs) (x : Scratch), x.i < x.S.length → x.j < x.L.length → IsWord g.w x.ka → IsWord g.w x.kb →
    (∀ v ∈ x.S, IsWord g.w v) → (∀ v ∈ x.L, IsWord g.w v) →
    let y := x.mixStep g
    let W := g.w.bits
    y.ka.toNat = Ref.rotl W (Ref.add W (Ref.add W (x.S.getD x.i 0).toNat x.ka.toNat) x.kb.toNat) 3 ∧
    y.kb.toNat = Ref.rotl W (Ref.add W (Ref.add W (x.L.getD x.j 0).toNat y.ka.toNat) x.kb.toNat)
      (Ref.add W y.ka.toNat x.kb.toNat) ∧
    (∀ n, n < x.S.length → y.S.getD n 0 = if n = x.i then y.ka else x.S.getD n 0) ∧
    (∀ n, n < x.L.length → y.L.getD n 0 = if n = x.j then y.kb else x.L.getD n 0) ∧
    y.S.length = x.S.length ∧ y.L.length = x.L.length ∧
    y.i = (x.i + 1) % (2 * (g.rounds + 1)) ∧ y.j = (x.j + 1) % max 1 (g.klen / g.w.bytes) ∧ y.k = x.k + 1 ∧
    y.a = x.a ∧ y.b = x.b ∧ y.r = x.r ∧ y.blk = x.blk

/-- The key schedule does not depend on what scratch state holds before, has `t` words and each is a `W`-bit word (rules
R33, R115, R124). -/
def Obligations.ScheduleDependsOnlyOnItsInputs : Prop :=
  ∀ (g : KeyInputs) (x y : Scratch),
    (x.keySchedule g).S = (y.keySchedule g).S ∧ (x.keySchedule g).S.length = 2 * (g.rounds + 1) ∧
    (∀ v ∈ (x.keySchedule g).S, IsWord g.w v) ∧ (x.keySchedule g).a = x.a ∧ (x.keySchedule g).b = x.b

/- ## Rounds (43_encrypt.md, 44_decrypt.md) -/

/-- `EncRound(r)` and `DecRound(r)` (rules R138, R152), over natural numbers: the second line of each uses the word the
first has just written. -/
def Obligations.RoundsFollowTheirRules : Prop :=
  ∀ (w : Width) (r : Nat) (x : Scratch), IsWord w x.a → IsWord w x.b → (∀ v ∈ x.S, IsWord w v) →
    2 * r + 1 < x.S.length →
    ((x.encRound w r).a.toNat, (x.encRound w r).b.toNat) =
      Ref.encRound w.bits (fun n => (x.S.getD n 0).toNat) r (x.a.toNat, x.b.toNat) ∧
    ((x.decRound w r).a.toNat, (x.decRound w r).b.toNat) =
      Ref.decRound w.bits (fun n => (x.S.getD n 0).toNat) r (x.a.toNat, x.b.toNat)

/-- `DecRound(r)` undoes `EncRound(r)` exactly, and the reverse (rules R107, R152). -/
def Obligations.RoundsUndoEachOther : Prop :=
  ∀ (w : Width) (r : Nat) (x : Scratch), IsWord w x.a → IsWord w x.b →
    ((x.encRound w r).decRound w r).a = x.a ∧ ((x.encRound w r).decRound w r).b = x.b ∧
    ((x.decRound w r).encRound w r).a = x.a ∧ ((x.decRound w r).encRound w r).b = x.b

/-- `DecodeBlock` and `EncodeBlock` (rules R136, R139, R151, R154): `A` and `B` are the little-endian values of the two
halves; a block is encoded `A` first, each word little-endian; encoding what was decoded gives the block back. -/
def Obligations.BlockCodecIsLittleEndianAndExact : Prop :=
  ∀ (w : Width) (x : Scratch) (block : List Byte), block.length = 2 * w.bytes →
    (x.decodeBlock w block).a.toNat = Ref.leDec w.bytes (block.map BitVec.toNat) 0 ∧
    (x.decodeBlock w block).b.toNat = Ref.leDec w.bytes (block.map BitVec.toNat) w.bytes ∧
    ((x.decodeBlock w block).encodeBlock w).blk = block ∧
    (IsWord w x.a → IsWord w x.b →
      (x.encodeBlock w).blk.map BitVec.toNat = Ref.leEnc w.bytes x.a.toNat ++ Ref.leEnc w.bytes x.b.toNat)

/- ## Words (41_word_ops.md) -/

/-- Addition, subtraction and multiplication wrap modulo `2^W`, adding and subtracting undo each other, and addition is
commutative and associative (rules R98, R99, R100). -/
def Obligations.ArithmeticWrapsModuloTheWordSize : Prop :=
  ∀ (w : Width) (x y z : Word), IsWord w x → IsWord w y → IsWord w z →
    (addW w x y).toNat = (x.toNat + y.toNat) % 2 ^ w.bits ∧
    (subW w x y).toNat = (if y.toNat ≤ x.toNat then x.toNat - y.toNat else x.toNat + 2 ^ w.bits - y.toNat) ∧
    (mulW w x y).toNat = x.toNat * y.toNat % 2 ^ w.bits ∧
    subW w (addW w x y) y = x ∧ addW w (subW w x y) y = x ∧
    addW w x y = addW w y x ∧ addW w (addW w x y) z = addW w x (addW w y z)

/-- Rotations (rules R101, R102): the value is the pseudocode's, bit `b` moves to bit `(b ± n) mod W`, the two undo each
other, and rotating right is rotating left by `W` less the amount. -/
def Obligations.RotationsMoveEveryBitAround : Prop :=
  ∀ (w : Width) (x n : Word), IsWord w x →
    (rotlW w x n).toNat = Ref.rotl w.bits x.toNat n.toNat ∧
    (rotrW w x n).toNat = Ref.rotr w.bits x.toNat n.toNat ∧
    (∀ b, b < w.bits → (rotlW w x n).toNat.testBit ((b + n.toNat) % w.bits) = x.toNat.testBit b) ∧
    (∀ b, b < w.bits → (rotrW w x n).toNat.testBit b = x.toNat.testBit ((b + n.toNat) % w.bits)) ∧
    rotrW w (rotlW w x n) n = x ∧ rotlW w (rotrW w x n) n = x ∧
    rotrW w x n = rotlW w x (BitVec.ofNat 64 (w.bits - n.toNat % w.bits))

/-- `XOR_W` (rule R103): bit by bit, its own inverse, commutative and associative. -/
def Obligations.XorIsBitwise : Prop :=
  ∀ (w : Width) (x y z : Word), IsWord w x → IsWord w y → IsWord w z →
    (∀ b, (xorW w x y).toNat.testBit b = (x.toNat.testBit b != y.toNat.testBit b)) ∧
    xorW w (xorW w x y) y = x ∧ xorW w x x = 0 ∧ xorW w x y = xorW w y x ∧
    xorW w (xorW w x y) z = xorW w x (xorW w y z)

/-- The little-endian codec (rules R96, R97): the values are the rules', and decoding and encoding undo each other. -/
def Obligations.WordCodecIsExact : Prop :=
  ∀ w : Width,
    (∀ s : List Byte, s.length = w.bytes →
      (leDec s).toNat = Ref.leDec w.bytes (s.map BitVec.toNat) 0 ∧ leEnc w (leDec s) = s) ∧
    (∀ x : Word, IsWord w x →
      (leEnc w x).length = w.bytes ∧ (leEnc w x).map BitVec.toNat = Ref.leEnc w.bytes x.toNat ∧ leDec (leEnc w x) = x)

/-- The magic constants (rules R15, R104) with `Q64` at its decided value, and all six are odd. -/
def Obligations.MagicConstantsAreTheSpecs : Prop :=
  magicP .w16 = 0xB7E1 ∧ magicP .w32 = 0xB7E15163 ∧ magicP .w64 = 0xB7E151628AED2A6B ∧
  (∀ q64, magicQ q64 .w16 = 0x9E37 ∧ magicQ q64 .w32 = 0x9E3779B9 ∧ magicQ q64 .w64 = q64) ∧
  State.reset.params.q64 = 0x9E3779B97F4A7C15 ∧
  ∀ w, (magicP w).toNat % 2 = 1 ∧ (magicQ State.reset.params.q64 w).toNat % 2 = 1

/-- One line of an encryption round is undone by the matching line of a decryption round (rule R107). -/
def Obligations.HalfRoundIsUndone : Prop :=
  ∀ (w : Width) (x y k : Word), IsWord w x → IsWord w y → IsWord w k →
    xorW w (rotrW w (subW w (addW w (rotlW w (xorW w x y) y) k) k) y) y = x

/- ## The whole machine -/

/-- The invariant holds just after reset. -/
def Obligations.ResetMeetsTheInvariant : Prop := State.reset.Inv

/-- Every step keeps the invariant: the limits legal, a configured engine's configuration legal and its key as long as
`klen`, a valid cache equal to the key schedule of the lifetime, the phase idle (rules R14, R22 to R25, R30, R34). -/
def Obligations.EveryStepKeepsTheInvariant : Prop :=
  ∀ s t : State, s.Inv → step s = .next t → t.Inv

/-- From a state that meets the invariant every step completes: once the tests have passed no command can fail, and none
hangs (rules R175, R201). -/
def Obligations.EveryStepCompletes : Prop :=
  ∀ s : State, s.Inv → ∃ t, step s = .next t

/-- The one fault, the model's own (log 13), arises only for a configured engine whose word size is none of 2, 4 and 8; no
step is refused. -/
def Obligations.OnlyAnIllegalWordSizeFaults : Prop :=
  ∀ s : State,
    (∀ f, step s = .fault f → s.life = .configured ∧ s.wordBytes ≠ 2 ∧ s.wordBytes ≠ 4 ∧ s.wordBytes ≠ 8) ∧
    (∀ r, step s ≠ .refused r)

/-- Every packet gets exactly one response, of the form of rule R70: a status byte, the 32-bit little-endian payload
length and the payload. The status byte is the number rule R71 gives the first error that applies, or `0x00`, each number
written out here; an error has no payload (rule R72). -/
def Obligations.EveryPacketGetsOneResponse : Prop :=
  ∀ (s : State) (p : Packet) (rest : List HostAction), s.Inv → s.inbox = .send p :: rest →
    ∃ (t : State) (status : Byte) (m : BitVec 32) (payload : List Byte), step s = .next t ∧
      t.outbox = s.outbox ++ [status :: (bytesOfField m ++ payload)] ∧ m.toNat = payload.length ∧
      status = (match Ref.status s (decode p) with
        | .ok => 0x00
        | .invalidKeyLength => 0x01
        | .invalidBlockLength => 0x02
        | .illegalCommand => 0x03
        | .invalidConfig => 0x04
        | .invalidState => 0x05) ∧
      (status ≠ 0x00 → payload = [])

/-- The status of a response is the first error that applies in the order of rule R171, or `OK`; and on an error nothing
persistent is written, the payload is empty and the engine is idle (rule R172). -/
def Obligations.StatusIsTheFirstErrorThatApplies : Prop :=
  ∀ (s : State) (p : Packet) (rest : List HostAction), s.Inv → s.inbox = .send p :: rest →
    ∃ t, step s = .next t ∧
      (Ref.status s (decode p) = .ok → ∃ payload, t.outbox = s.outbox ++ [responsePacket .ok payload]) ∧
      (Ref.status s (decode p) ≠ .ok → RejectedWith { s with inbox := rest } t (Ref.status s (decode p)))

/-- No error is sticky and no retry helps: after a packet that fails, the same packet fails with the same status, and every
other packet is answered as it would have been without the failed one (rules R173, R174). -/
def Obligations.ErrorsAreNotStickyAndRepeat : Prop :=
  ∀ (s t : State) (p q : Packet), s.Inv → s.inbox = [] → Ref.status s (decode p) ≠ .ok →
    step (s.deliver p) = .next t →
    (∃ t', step (t.deliver p) = .next t' ∧ RejectedWith t t' (Ref.status s (decode p))) ∧
    (∃ u u' response, step (s.deliver q) = .next u ∧ step (t.deliver q) = .next u' ∧
      u.outbox = s.outbox ++ [response] ∧ u'.outbox = t.outbox ++ [response] ∧ SameConfig u u' ∧ u'.sCache = u.sCache)

/-- While the engine is configured, nothing but a reset changes its lifecycle bit, configuration, key or parameters (rule
R26). -/
def Obligations.ConfiguredEngineIsImmutable : Prop :=
  ∀ s t : State, s.life = .configured → s.inbox.head? ≠ some .reset → step s = .next t → SameConfig s t

/-- Within a lifetime every response is a function of its packet and of the values given at `INIT` alone: whatever packets
the hosts send and in whatever order, each is answered as if it had come first (rules R26, R54, R181). -/
def Obligations.ResponsesDependOnThePacketAndTheConfiguration : Prop :=
  ∀ s : State, s.Inv → s.life = .configured →
    ∃ f : Packet → Packet, ∀ s' : State, s'.Inv → SameConfig s s' → ∀ packets : List Packet,
      ∃ t, State.runSteps packets.length (s'.sending packets) = .next t ∧ t.outbox = s'.outbox ++ packets.map f ∧
        SameConfig s' t

/-- Two uses in either order get the same responses and leave the same configuration (rule R54). -/
def Obligations.UsesCommute : Prop :=
  ∀ (s : State) (i j : Instr), s.Inv → s.life = .configured → isUse i → isUse j →
    ∃ t t' u u' ri rj, exec i s = .next t ∧ exec j t = .next t' ∧ exec j s = .next u ∧ exec i u = .next u' ∧
      t'.outbox = s.outbox ++ [ri, rj] ∧ u'.outbox = s.outbox ++ [rj, ri] ∧ SameConfig t' u'

/-- Scratch state, the cache and, while unconfigured, the configuration and key registers are never observed: two states
that differ only there give the same responses to the same host actions, for ever (rules R33, R34, R192). -/
def Obligations.UnspecifiedStateIsNeverObserved : Prop :=
  ∀ (s t : State) (n : Nat), s.Inv → t.Inv → Indistinguishable s t →
    ∃ s' t', State.runSteps n s = .next s' ∧ State.runSteps n t = .next t' ∧ Indistinguishable s' t'

/-- A cache changes no response: with any cache policy and any valid cache the engine answers as the one that recomputes
`S` in every command (rule R34). -/
def Obligations.CachingChangesNoResponse : Prop :=
  ∀ (s : State) (n : Nat), s.Inv →
    ∃ t t', State.runSteps n s = .next t ∧
      State.runSteps n { s with params := { s.params with cache := .never }, sCache := none } = .next t' ∧
      t.outbox = t'.outbox

/-- After a reset, until an `INIT` succeeds, only `INIT` can: a packet answered `OK` by an unconfigured engine is an `INIT`
(rule R192). -/
def Obligations.OnlyInitSucceedsBeforeConstruction : Prop :=
  ∀ (s t : State) (p : Packet) (rest : List HostAction) (payload : List Byte), s.life = .unconfigured →
    s.inbox = .send p :: rest → step s = .next t → t.outbox = s.outbox ++ [responsePacket .ok payload] →
    (∃ wb rounds kbl key, decode p = .instr (.init wb rounds kbl key)) ∧ t.life = .configured

/- ## The sequencer (rules R7, R30, R125, R142, R158) -/

/-- The iteration-level engine produces exactly the response and the next state of the atomic command (rule R7), an error
and `INIT` in one tick and a command whose tests pass in the number of ticks rule R200 counts. -/
def Obligations.SequencerRefinesTheAtomicCommand : Prop :=
  ∀ (s : State) (i : Instr),
    (Ref.status s (.instr i) ≠ .ok → State.ticks i 1 s.startCommand = exec i s) ∧
    (isUse i = false → State.ticks i 1 s.startCommand = exec i s) ∧
    (∀ g, Ref.status s (.instr i) = .ok → s.keyInputs? = some g →
      State.ticks i (s.workTicks g i) s.startCommand = exec i s)

/-- Inside a command every index of the next tick is inside its table and every counter in its range: no out-of-range
access can occur (rules R30, R33, R51). -/
def Obligations.SequencerKeepsItsIndicesInRange : Prop :=
  (∀ s : State, s.Inv → s.startCommand.SequencerInv) ∧
  (∀ (s t : State) (i : Instr), s.SequencerInv → isUse i → s.tick i = .next t → t.SequencerInv)

/-- At the largest limits rule R14 permits, the counters fit the widths of rule R30. -/
def Obligations.CountersFitTheirWidths : Prop :=
  ∀ (s : State) (g : KeyInputs), s.PersistentOk → s.life = .configured → s.keyInputs? = some g →
    g.t ≤ 2 ^ 29 - 2 ∧ g.c < 2 ^ 31 ∧ g.nMix < 2 ^ 33 ∧ g.rounds < 2 ^ 28 ∧ g.t * g.w.bytes ≤ 2 ^ 32 - 1

/-- The phases of a command follow one another in the order of rules R125, R142 and R158: an error and `INIT` (log 11) go
from `CHECK` to idle, a valid cache skips the key schedule (log 12), `ENC_RND` and `DEC_RND` are skipped when `R = 0` and
otherwise count the rounds up from 1 and down from `R`. A tick gives a response exactly when it ends the command. -/
def Obligations.PhasesFollowTheirOrder : Prop :=
  ∀ (s t : State) (i : Instr), s.tick i = .next t →
    t.phase ∈ s.phasesAfter i ∧ RoundsCounted s t ∧
    (t.phase = .idle → s.phase ≠ .idle → ∃ response, t.outbox = s.outbox ++ [response]) ∧
    (t.phase ≠ .idle → t.outbox = s.outbox)
end

