-- ==== Sys2Proof/Laws/WordOps.lean ====
section
/-! SUPPORT. The word operations pushed down to `W`-bit vectors: a register keeps a word exactly, and each operation is the
bit-vector operation on the architectural bits. -/

namespace Sys2Proof

theorem Width.bits_eq (w : Width) : w.bits = 8 * w.bytes := by cases w <;> rfl

theorem Width.bits_pos (w : Width) : 0 < w.bits := by cases w <;> decide

theorem Width.bits_le (w : Width) : w.bits ≤ 64 := by cases w <;> decide

theorem Width.bytes_pos (w : Width) : 0 < w.bytes := by cases w <;> decide

theorem Width.bytes_le (w : Width) : w.bytes ≤ 8 := by cases w <;> decide

/-- `2^W` fits the physical register. -/
theorem Width.pow_le (w : Width) : 2 ^ w.bits ≤ 2 ^ 64 := Nat.pow_le_pow_right (by decide) w.bits_le

/-- A word size named by a `word_bytes` value has that many bytes. -/
theorem Width.bytes_of_ofBytes? {v : BitVec 8} {w : Width} (h : Width.ofBytes? v = some w) : v.toNat = w.bytes := by
  unfold Width.ofBytes? at h
  split at h
  · cases h; simp_all [Width.bytes]
  · split at h
    · cases h; simp_all [Width.bytes]
    · split at h
      · cases h; simp_all [Width.bytes]
      · cases h

/-- The legal `word_bytes` values are 2, 4 and 8. -/
theorem Width.ofBytes?_isSome {v : BitVec 8} : (Width.ofBytes? v).isSome ↔ v = 2 ∨ v = 4 ∨ v = 8 := by
  unfold Width.ofBytes?
  split
  · simp_all
  · split
    · simp_all
    · split <;> simp_all

namespace Machine

variable {w : Width} {x y n : Word}

@[simp] theorem low_reg (v : BitVec w.bits) : low w (reg w v) = v := by
  rw [low, reg, BitVec.setWidth_setWidth_of_le v w.bits_le, BitVec.setWidth_eq]

theorem toNat_reg (v : BitVec w.bits) : (reg w v).toNat = v.toNat := by
  simp only [reg, BitVec.toNat_setWidth]
  exact Nat.mod_eq_of_lt (Nat.lt_of_lt_of_le v.isLt w.pow_le)

theorem toNat_low : (low w x).toNat = x.toNat % 2 ^ w.bits := by simp [low]

theorem toNat_low_of_isWord (h : IsWord w x) : (low w x).toNat = x.toNat := by
  rw [toNat_low]; exact Nat.mod_eq_of_lt h

theorem reg_low (h : IsWord w x) : reg w (low w x) = x :=
  BitVec.eq_of_toNat_eq (by rw [toNat_reg, toNat_low_of_isWord h])

theorem isWord_reg (v : BitVec w.bits) : IsWord w (reg w v) := by
  simp only [IsWord, toNat_reg]; exact v.isLt

/-- Two words with the same architectural bits are equal. -/
theorem eq_of_low_eq (hx : IsWord w x) (hy : IsWord w y) (h : low w x = low w y) : x = y := by
  rw [← reg_low hx, ← reg_low hy, h]

theorem isWord_zero (w : Width) : IsWord w 0 := by cases w <;> decide

theorem isWord_wordOfNat (w : Width) (n : Nat) : IsWord w (wordOfNat w n) := isWord_reg _
theorem isWord_addW (w : Width) (x y : Word) : IsWord w (addW w x y) := isWord_reg _
theorem isWord_subW (w : Width) (x y : Word) : IsWord w (subW w x y) := isWord_reg _
theorem isWord_mulW (w : Width) (x y : Word) : IsWord w (mulW w x y) := isWord_reg _
theorem isWord_rotlW (w : Width) (x n : Word) : IsWord w (rotlW w x n) := isWord_reg _
theorem isWord_rotrW (w : Width) (x n : Word) : IsWord w (rotrW w x n) := isWord_reg _
theorem isWord_xorW (w : Width) (x y : Word) : IsWord w (xorW w x y) := isWord_reg _

theorem low_addW : low w (addW w x y) = low w x + low w y := low_reg _
theorem low_subW : low w (subW w x y) = low w x - low w y := low_reg _
theorem low_mulW : low w (mulW w x y) = low w x * low w y := low_reg _
theorem low_rotlW : low w (rotlW w x n) = (low w x).rotateLeft (n.toNat % w.bits) := low_reg _
theorem low_rotrW : low w (rotrW w x n) = (low w x).rotateRight (n.toNat % w.bits) := low_reg _
theorem low_xorW : low w (xorW w x y) = low w x ^^^ low w y := low_reg _

/-- Rotating left and then right by the same amount moves every bit back. -/
theorem rotateRight_rotateLeft {m : Nat} (v : BitVec m) (r : Nat) : (v.rotateLeft r).rotateRight r = v := by
  rcases Nat.eq_zero_or_pos m with rfl | hm
  · exact Subsingleton.elim _ _
  · apply BitVec.eq_of_getElem_eq
    intro i hi
    have hr := Nat.mod_lt r hm
    simp only [BitVec.getElem_rotateRight, BitVec.getElem_rotateLeft]
    split
    · rw [dif_neg (by omega)]
      congr 1; omega
    · rw [dif_pos (by omega)]
      congr 1; omega

/-- Rotating right and then left by the same amount moves every bit back. -/
theorem rotateLeft_rotateRight {m : Nat} (v : BitVec m) (r : Nat) : (v.rotateRight r).rotateLeft r = v := by
  rcases Nat.eq_zero_or_pos m with rfl | hm
  · exact Subsingleton.elim _ _
  · apply BitVec.eq_of_getElem_eq
    intro i hi
    have hr := Nat.mod_lt r hm
    simp only [BitVec.getElem_rotateRight, BitVec.getElem_rotateLeft]
    split
    · rw [dif_neg (by omega)]
      congr 1; omega
    · rw [dif_pos (by omega)]
      congr 1; omega

end Machine

end Sys2Proof
end

