-- ==== Sys2Proof/Laws/Codec.lean ====
section
/-! SUPPORT. The little-endian codec: the number of a byte sequence, its bytes, and the lengths of what is encoded. -/

namespace Sys2Proof.Machine

/-- A sequence of `n` bytes stands for a number below `256^n`. -/
theorem leNat_lt (s : List Byte) : leNat s < 256 ^ s.length := by
  induction s with
  | nil => decide
  | cons byte rest ih =>
    have h : byte.toNat < 256 := byte.isLt
    simp only [leNat, List.length_cons, pow_succ]
    omega

/-- Byte `n` of the number is byte `n` of the sequence (rule R43). -/
theorem leNat_byte (s : List Byte) (n : Nat) (h : n < s.length) : leNat s / 256 ^ n % 256 = s[n].toNat := by
  induction s generalizing n with
  | nil => exact absurd h (Nat.not_lt_zero n)
  | cons byte rest ih =>
    have hb : byte.toNat < 256 := byte.isLt
    cases n with
    | zero => simp only [leNat, pow_zero, Nat.div_one, List.getElem_cons_zero]; omega
    | succ n =>
      simp only [leNat, List.getElem_cons_succ]
      rw [pow_succ, Nat.mul_comm (256 ^ n), ← Nat.div_div_eq_div_mul, show (byte.toNat + 256 * leNat rest) / 256 = leNat rest by omega]
      exact ih n (by simpa using h)

/-- The number of two sequences joined: the second counts from the place after the first. -/
theorem leNat_append (s t : List Byte) : leNat (s ++ t) = leNat s + 256 ^ s.length * leNat t := by
  induction s with
  | nil => simp [leNat]
  | cons byte rest ih => simp only [List.cons_append, leNat, ih, List.length_cons, pow_succ]; ring

@[simp] theorem leEnc_length (w : Width) (x : Word) : (leEnc w x).length = w.bytes := by simp [leEnc]

/-- Byte `n` of an encoded word (rule R97). -/
theorem leEnc_getElem (w : Width) (x : Word) (n : Nat) (h : n < (leEnc w x).length) :
    ((leEnc w x)[n]).toNat = x.toNat / 2 ^ (8 * n) % 256 := by
  simp [leEnc, Nat.shiftRight_eq_div_pow]

/-- Decoding at most eight bytes loses nothing. -/
theorem leDec_toNat {s : List Byte} (h : s.length ≤ 8) : (leDec s).toNat = leNat s := by
  rw [leDec, BitVec.toNat_ofNat]
  apply Nat.mod_eq_of_lt
  calc leNat s < 256 ^ s.length := leNat_lt s
    _ ≤ 256 ^ 8 := Nat.pow_le_pow_right (by decide) h
    _ = 2 ^ 64 := by decide

/-- `u` bytes decode to a `W`-bit word. -/
theorem isWord_leDec {w : Width} {s : List Byte} (h : s.length = w.bytes) : IsWord w (leDec s) := by
  have hs := leNat_lt s
  rw [IsWord, leDec_toNat (h ▸ w.bytes_le), w.bits_eq, pow_mul]
  simpa [h] using hs

@[simp] theorem readBytes_length (space : List Byte) (o n : Nat) :
    (readBytes space o n).length = min n (space.length - o) := by simp [readBytes]

/-- The `u` bytes at an offset inside a sequence. -/
theorem readBytes_length_of_le {space : List Byte} {o n : Nat} (h : o + n ≤ space.length) :
    (readBytes space o n).length = n := by simp [readBytes]; omega

/-- A whole table encodes to `u` bytes a word (rule R72). -/
@[simp] theorem encodeTable_length (w : Width) (table : List Word) :
    (encodeTable w table).length = table.length * w.bytes := by
  induction table with
  | nil => simp [encodeTable]
  | cons v rest ih =>
    simp only [encodeTable, List.flatMap_cons, List.length_append, leEnc_length, List.length_cons] at ih ⊢
    rw [ih]; ring

end Sys2Proof.Machine
end

