-- ==== Sys2Proof/Laws/State.lean ====
section
/-! SUPPORT. One lemma per field and update of the state and of the scratch registers, so that no proof unfolds a record
update. -/

namespace Sys2Proof.Machine

variable (s : State) (x : Scratch) (g : KeyInputs) (w : Width)

@[simp] theorem State.respond_params (status : Status) (payload : List Byte) :
    (s.respond status payload).params = s.params := rfl
@[simp] theorem State.respond_life (status : Status) (payload : List Byte) :
    (s.respond status payload).life = s.life := rfl
@[simp] theorem State.respond_wordBytes (status : Status) (payload : List Byte) :
    (s.respond status payload).wordBytes = s.wordBytes := rfl
@[simp] theorem State.respond_rounds (status : Status) (payload : List Byte) :
    (s.respond status payload).rounds = s.rounds := rfl
@[simp] theorem State.respond_keyBytesLen (status : Status) (payload : List Byte) :
    (s.respond status payload).keyBytesLen = s.keyBytesLen := rfl
@[simp] theorem State.respond_key (status : Status) (payload : List Byte) :
    (s.respond status payload).key = s.key := rfl
@[simp] theorem State.respond_klen (status : Status) (payload : List Byte) :
    (s.respond status payload).klen = s.klen := rfl
@[simp] theorem State.respond_scratch (status : Status) (payload : List Byte) :
    (s.respond status payload).scratch = Scratch.free s.draws := rfl
@[simp] theorem State.respond_phase (status : Status) (payload : List Byte) :
    (s.respond status payload).phase = .idle := rfl
@[simp] theorem State.respond_sCache (status : Status) (payload : List Byte) :
    (s.respond status payload).sCache = s.sCache := rfl
@[simp] theorem State.respond_inbox (status : Status) (payload : List Byte) :
    (s.respond status payload).inbox = s.inbox := rfl
@[simp] theorem State.respond_outbox (status : Status) (payload : List Byte) :
    (s.respond status payload).outbox = s.outbox ++ [responsePacket status payload] := rfl
@[simp] theorem State.respond_draws (status : Status) (payload : List Byte) :
    (s.respond status payload).draws = s.draws + 1 := rfl

@[simp] theorem State.raise_params (error : Status) : (s.raise error).params = s.params := rfl
@[simp] theorem State.raise_life (error : Status) : (s.raise error).life = s.life := rfl
@[simp] theorem State.raise_wordBytes (error : Status) : (s.raise error).wordBytes = s.wordBytes := rfl
@[simp] theorem State.raise_rounds (error : Status) : (s.raise error).rounds = s.rounds := rfl
@[simp] theorem State.raise_keyBytesLen (error : Status) : (s.raise error).keyBytesLen = s.keyBytesLen := rfl
@[simp] theorem State.raise_key (error : Status) : (s.raise error).key = s.key := rfl
@[simp] theorem State.raise_klen (error : Status) : (s.raise error).klen = s.klen := rfl
@[simp] theorem State.raise_scratch (error : Status) : (s.raise error).scratch = Scratch.free s.draws := rfl
@[simp] theorem State.raise_phase (error : Status) : (s.raise error).phase = .idle := rfl
@[simp] theorem State.raise_sCache (error : Status) : (s.raise error).sCache = s.sCache := rfl
@[simp] theorem State.raise_inbox (error : Status) : (s.raise error).inbox = s.inbox := rfl
@[simp] theorem State.raise_outbox (error : Status) :
    (s.raise error).outbox = s.outbox ++ [responsePacket error []] := rfl
@[simp] theorem State.raise_draws (error : Status) : (s.raise error).draws = s.draws + 1 := rfl

@[simp] theorem State.hostReset_params : (s.hostReset).params = s.params := rfl
@[simp] theorem State.hostReset_life : (s.hostReset).life = .unconfigured := rfl
@[simp] theorem State.hostReset_wordBytes : (s.hostReset).wordBytes = Config.freeByte s.draws 11 := rfl
@[simp] theorem State.hostReset_rounds : (s.hostReset).rounds = Config.freeWord32 s.draws 12 := rfl
@[simp] theorem State.hostReset_keyBytesLen : (s.hostReset).keyBytesLen = Config.freeWord32 s.draws 13 := rfl
@[simp] theorem State.hostReset_key : (s.hostReset).key = Config.freeBytes s.draws 14 := rfl
@[simp] theorem State.hostReset_klen : (s.hostReset).klen = Config.freeWord32 s.draws 15 := rfl
@[simp] theorem State.hostReset_scratch : (s.hostReset).scratch = Scratch.free s.draws := rfl
@[simp] theorem State.hostReset_phase : (s.hostReset).phase = .idle := rfl
@[simp] theorem State.hostReset_sCache : (s.hostReset).sCache = none := rfl
@[simp] theorem State.hostReset_inbox : (s.hostReset).inbox = s.inbox := rfl
@[simp] theorem State.hostReset_outbox : (s.hostReset).outbox = s.outbox := rfl
@[simp] theorem State.hostReset_draws : (s.hostReset).draws = s.draws + 1 := rfl

@[simp] theorem State.takeAction_params : (s.takeAction).params = s.params := rfl
@[simp] theorem State.takeAction_life : (s.takeAction).life = s.life := rfl
@[simp] theorem State.takeAction_wordBytes : (s.takeAction).wordBytes = s.wordBytes := rfl
@[simp] theorem State.takeAction_rounds : (s.takeAction).rounds = s.rounds := rfl
@[simp] theorem State.takeAction_keyBytesLen : (s.takeAction).keyBytesLen = s.keyBytesLen := rfl
@[simp] theorem State.takeAction_key : (s.takeAction).key = s.key := rfl
@[simp] theorem State.takeAction_klen : (s.takeAction).klen = s.klen := rfl
@[simp] theorem State.takeAction_scratch : (s.takeAction).scratch = s.scratch := rfl
@[simp] theorem State.takeAction_phase : (s.takeAction).phase = s.phase := rfl
@[simp] theorem State.takeAction_sCache : (s.takeAction).sCache = s.sCache := rfl
@[simp] theorem State.takeAction_inbox : (s.takeAction).inbox = s.inbox.tail := rfl
@[simp] theorem State.takeAction_outbox : (s.takeAction).outbox = s.outbox := rfl
@[simp] theorem State.takeAction_draws : (s.takeAction).draws = s.draws := rfl

@[simp] theorem State.deliver_params (packet : Packet) : (s.deliver packet).params = s.params := rfl
@[simp] theorem State.deliver_life (packet : Packet) : (s.deliver packet).life = s.life := rfl
@[simp] theorem State.deliver_wordBytes (packet : Packet) : (s.deliver packet).wordBytes = s.wordBytes := rfl
@[simp] theorem State.deliver_rounds (packet : Packet) : (s.deliver packet).rounds = s.rounds := rfl
@[simp] theorem State.deliver_keyBytesLen (packet : Packet) : (s.deliver packet).keyBytesLen = s.keyBytesLen := rfl
@[simp] theorem State.deliver_key (packet : Packet) : (s.deliver packet).key = s.key := rfl
@[simp] theorem State.deliver_klen (packet : Packet) : (s.deliver packet).klen = s.klen := rfl
@[simp] theorem State.deliver_scratch (packet : Packet) : (s.deliver packet).scratch = s.scratch := rfl
@[simp] theorem State.deliver_phase (packet : Packet) : (s.deliver packet).phase = s.phase := rfl
@[simp] theorem State.deliver_sCache (packet : Packet) : (s.deliver packet).sCache = s.sCache := rfl
@[simp] theorem State.deliver_inbox (packet : Packet) : (s.deliver packet).inbox = .send packet :: s.inbox := rfl
@[simp] theorem State.deliver_outbox (packet : Packet) : (s.deliver packet).outbox = s.outbox := rfl
@[simp] theorem State.deliver_draws (packet : Packet) : (s.deliver packet).draws = s.draws := rfl

@[simp] theorem State.keepTable_params (table : List Word) : (s.keepTable table).params = s.params := rfl
@[simp] theorem State.keepTable_life (table : List Word) : (s.keepTable table).life = s.life := rfl
@[simp] theorem State.keepTable_wordBytes (table : List Word) : (s.keepTable table).wordBytes = s.wordBytes := rfl
@[simp] theorem State.keepTable_rounds (table : List Word) : (s.keepTable table).rounds = s.rounds := rfl
@[simp] theorem State.keepTable_keyBytesLen (table : List Word) :
    (s.keepTable table).keyBytesLen = s.keyBytesLen := rfl
@[simp] theorem State.keepTable_key (table : List Word) : (s.keepTable table).key = s.key := rfl
@[simp] theorem State.keepTable_klen (table : List Word) : (s.keepTable table).klen = s.klen := rfl
@[simp] theorem State.keepTable_scratch (table : List Word) : (s.keepTable table).scratch = s.scratch := rfl
@[simp] theorem State.keepTable_phase (table : List Word) : (s.keepTable table).phase = s.phase := rfl
@[simp] theorem State.keepTable_sCache (table : List Word) : (s.keepTable table).sCache = s.cacheAfterUse table := rfl
@[simp] theorem State.keepTable_inbox (table : List Word) : (s.keepTable table).inbox = s.inbox := rfl
@[simp] theorem State.keepTable_outbox (table : List Word) : (s.keepTable table).outbox = s.outbox := rfl
@[simp] theorem State.keepTable_draws (table : List Word) : (s.keepTable table).draws = s.draws := rfl

@[simp] theorem State.construct_params (wb : BitVec 8) (rounds kbl : BitVec 32) (key : List Byte) :
    (s.construct wb rounds kbl key).params = s.params := rfl
@[simp] theorem State.construct_life (wb : BitVec 8) (rounds kbl : BitVec 32) (key : List Byte) :
    (s.construct wb rounds kbl key).life = .configured := rfl
@[simp] theorem State.construct_wordBytes (wb : BitVec 8) (rounds kbl : BitVec 32) (key : List Byte) :
    (s.construct wb rounds kbl key).wordBytes = wb := rfl
@[simp] theorem State.construct_rounds (wb : BitVec 8) (rounds kbl : BitVec 32) (key : List Byte) :
    (s.construct wb rounds kbl key).rounds = rounds := rfl
@[simp] theorem State.construct_keyBytesLen (wb : BitVec 8) (rounds kbl : BitVec 32) (key : List Byte) :
    (s.construct wb rounds kbl key).keyBytesLen = kbl := rfl
@[simp] theorem State.construct_key (wb : BitVec 8) (rounds kbl : BitVec 32) (key : List Byte) :
    (s.construct wb rounds kbl key).key = key := rfl
@[simp] theorem State.construct_klen (wb : BitVec 8) (rounds kbl : BitVec 32) (key : List Byte) :
    (s.construct wb rounds kbl key).klen = BitVec.ofNat 32 key.length := rfl
@[simp] theorem State.construct_scratch (wb : BitVec 8) (rounds kbl : BitVec 32) (key : List Byte) :
    (s.construct wb rounds kbl key).scratch = s.scratch := rfl
@[simp] theorem State.construct_phase (wb : BitVec 8) (rounds kbl : BitVec 32) (key : List Byte) :
    (s.construct wb rounds kbl key).phase = s.phase := rfl
@[simp] theorem State.construct_sCache (wb : BitVec 8) (rounds kbl : BitVec 32) (key : List Byte) :
    (s.construct wb rounds kbl key).sCache = s.sCache := rfl
@[simp] theorem State.construct_inbox (wb : BitVec 8) (rounds kbl : BitVec 32) (key : List Byte) :
    (s.construct wb rounds kbl key).inbox = s.inbox := rfl
@[simp] theorem State.construct_outbox (wb : BitVec 8) (rounds kbl : BitVec 32) (key : List Byte) :
    (s.construct wb rounds kbl key).outbox = s.outbox := rfl
@[simp] theorem State.construct_draws (wb : BitVec 8) (rounds kbl : BitVec 32) (key : List Byte) :
    (s.construct wb rounds kbl key).draws = s.draws := rfl

@[simp] theorem State.fillAtInit_params : (s.fillAtInit).params = s.params := rfl
@[simp] theorem State.fillAtInit_life : (s.fillAtInit).life = s.life := rfl
@[simp] theorem State.fillAtInit_wordBytes : (s.fillAtInit).wordBytes = s.wordBytes := rfl
@[simp] theorem State.fillAtInit_rounds : (s.fillAtInit).rounds = s.rounds := rfl
@[simp] theorem State.fillAtInit_keyBytesLen : (s.fillAtInit).keyBytesLen = s.keyBytesLen := rfl
@[simp] theorem State.fillAtInit_key : (s.fillAtInit).key = s.key := rfl
@[simp] theorem State.fillAtInit_klen : (s.fillAtInit).klen = s.klen := rfl
@[simp] theorem State.fillAtInit_scratch : (s.fillAtInit).scratch = s.scratch := rfl
@[simp] theorem State.fillAtInit_phase : (s.fillAtInit).phase = s.phase := rfl
@[simp] theorem State.fillAtInit_sCache : (s.fillAtInit).sCache = s.cacheAfterInit := rfl
@[simp] theorem State.fillAtInit_inbox : (s.fillAtInit).inbox = s.inbox := rfl
@[simp] theorem State.fillAtInit_outbox : (s.fillAtInit).outbox = s.outbox := rfl
@[simp] theorem State.fillAtInit_draws : (s.fillAtInit).draws = s.draws := rfl

@[simp] theorem State.startCommand_params : (s.startCommand).params = s.params := rfl
@[simp] theorem State.startCommand_life : (s.startCommand).life = s.life := rfl
@[simp] theorem State.startCommand_wordBytes : (s.startCommand).wordBytes = s.wordBytes := rfl
@[simp] theorem State.startCommand_rounds : (s.startCommand).rounds = s.rounds := rfl
@[simp] theorem State.startCommand_keyBytesLen : (s.startCommand).keyBytesLen = s.keyBytesLen := rfl
@[simp] theorem State.startCommand_key : (s.startCommand).key = s.key := rfl
@[simp] theorem State.startCommand_klen : (s.startCommand).klen = s.klen := rfl
@[simp] theorem State.startCommand_scratch : (s.startCommand).scratch = s.scratch := rfl
@[simp] theorem State.startCommand_phase : (s.startCommand).phase = .check := rfl
@[simp] theorem State.startCommand_sCache : (s.startCommand).sCache = s.sCache := rfl
@[simp] theorem State.startCommand_inbox : (s.startCommand).inbox = s.inbox := rfl
@[simp] theorem State.startCommand_outbox : (s.startCommand).outbox = s.outbox := rfl
@[simp] theorem State.startCommand_draws : (s.startCommand).draws = s.draws := rfl

@[simp] theorem Scratch.decodeBlock_a (block : List Byte) :
    (x.decodeBlock w block).a = leDec (readBytes block 0 w.bytes) := rfl
@[simp] theorem Scratch.decodeBlock_b (block : List Byte) :
    (x.decodeBlock w block).b = leDec (readBytes block w.bytes w.bytes) := rfl
@[simp] theorem Scratch.decodeBlock_ka (block : List Byte) : (x.decodeBlock w block).ka = x.ka := rfl
@[simp] theorem Scratch.decodeBlock_kb (block : List Byte) : (x.decodeBlock w block).kb = x.kb := rfl
@[simp] theorem Scratch.decodeBlock_S (block : List Byte) : (x.decodeBlock w block).S = x.S := rfl
@[simp] theorem Scratch.decodeBlock_L (block : List Byte) : (x.decodeBlock w block).L = x.L := rfl
@[simp] theorem Scratch.decodeBlock_blk (block : List Byte) : (x.decodeBlock w block).blk = block := rfl
@[simp] theorem Scratch.decodeBlock_i (block : List Byte) : (x.decodeBlock w block).i = x.i := rfl
@[simp] theorem Scratch.decodeBlock_j (block : List Byte) : (x.decodeBlock w block).j = x.j := rfl
@[simp] theorem Scratch.decodeBlock_k (block : List Byte) : (x.decodeBlock w block).k = x.k := rfl
@[simp] theorem Scratch.decodeBlock_r (block : List Byte) : (x.decodeBlock w block).r = x.r := rfl

@[simp] theorem Scratch.encodeBlock_a : (x.encodeBlock w).a = x.a := rfl
@[simp] theorem Scratch.encodeBlock_b : (x.encodeBlock w).b = x.b := rfl
@[simp] theorem Scratch.encodeBlock_ka : (x.encodeBlock w).ka = x.ka := rfl
@[simp] theorem Scratch.encodeBlock_kb : (x.encodeBlock w).kb = x.kb := rfl
@[simp] theorem Scratch.encodeBlock_S : (x.encodeBlock w).S = x.S := rfl
@[simp] theorem Scratch.encodeBlock_L : (x.encodeBlock w).L = x.L := rfl
@[simp] theorem Scratch.encodeBlock_blk : (x.encodeBlock w).blk = leEnc w x.a ++ leEnc w x.b := rfl
@[simp] theorem Scratch.encodeBlock_i : (x.encodeBlock w).i = x.i := rfl
@[simp] theorem Scratch.encodeBlock_j : (x.encodeBlock w).j = x.j := rfl
@[simp] theorem Scratch.encodeBlock_k : (x.encodeBlock w).k = x.k := rfl
@[simp] theorem Scratch.encodeBlock_r : (x.encodeBlock w).r = x.r := rfl

@[simp] theorem Scratch.buildL_a : (x.buildL g).a = x.a := rfl
@[simp] theorem Scratch.buildL_b : (x.buildL g).b = x.b := rfl
@[simp] theorem Scratch.buildL_ka : (x.buildL g).ka = x.ka := rfl
@[simp] theorem Scratch.buildL_kb : (x.buildL g).kb = x.kb := rfl
@[simp] theorem Scratch.buildL_S : (x.buildL g).S = x.S := rfl
@[simp] theorem Scratch.buildL_L : (x.buildL g).L = (List.range g.c).map (keyWord g) := rfl
@[simp] theorem Scratch.buildL_blk : (x.buildL g).blk = x.blk := rfl
@[simp] theorem Scratch.buildL_i : (x.buildL g).i = x.i := rfl
@[simp] theorem Scratch.buildL_j : (x.buildL g).j = x.j := rfl
@[simp] theorem Scratch.buildL_k : (x.buildL g).k = x.k := rfl
@[simp] theorem Scratch.buildL_r : (x.buildL g).r = x.r := rfl

@[simp] theorem Scratch.initS_a : (x.initS g).a = x.a := rfl
@[simp] theorem Scratch.initS_b : (x.initS g).b = x.b := rfl
@[simp] theorem Scratch.initS_ka : (x.initS g).ka = x.ka := rfl
@[simp] theorem Scratch.initS_kb : (x.initS g).kb = x.kb := rfl
@[simp] theorem Scratch.initS_S : (x.initS g).S = (List.range g.t).map (initWord g) := rfl
@[simp] theorem Scratch.initS_L : (x.initS g).L = x.L := rfl
@[simp] theorem Scratch.initS_blk : (x.initS g).blk = x.blk := rfl
@[simp] theorem Scratch.initS_i : (x.initS g).i = x.i := rfl
@[simp] theorem Scratch.initS_j : (x.initS g).j = x.j := rfl
@[simp] theorem Scratch.initS_k : (x.initS g).k = x.k := rfl
@[simp] theorem Scratch.initS_r : (x.initS g).r = x.r := rfl

@[simp] theorem Scratch.mixInit_a : (x.mixInit).a = x.a := rfl
@[simp] theorem Scratch.mixInit_b : (x.mixInit).b = x.b := rfl
@[simp] theorem Scratch.mixInit_ka : (x.mixInit).ka = 0 := rfl
@[simp] theorem Scratch.mixInit_kb : (x.mixInit).kb = 0 := rfl
@[simp] theorem Scratch.mixInit_S : (x.mixInit).S = x.S := rfl
@[simp] theorem Scratch.mixInit_L : (x.mixInit).L = x.L := rfl
@[simp] theorem Scratch.mixInit_blk : (x.mixInit).blk = x.blk := rfl
@[simp] theorem Scratch.mixInit_i : (x.mixInit).i = 0 := rfl
@[simp] theorem Scratch.mixInit_j : (x.mixInit).j = 0 := rfl
@[simp] theorem Scratch.mixInit_k : (x.mixInit).k = 0 := rfl
@[simp] theorem Scratch.mixInit_r : (x.mixInit).r = x.r := rfl

@[simp] theorem Scratch.encPre_a : (x.encPre w).a = addW w x.a (readTable x.S 0) := rfl
@[simp] theorem Scratch.encPre_b : (x.encPre w).b = addW w x.b (readTable x.S 1) := rfl
@[simp] theorem Scratch.encPre_ka : (x.encPre w).ka = x.ka := rfl
@[simp] theorem Scratch.encPre_kb : (x.encPre w).kb = x.kb := rfl
@[simp] theorem Scratch.encPre_S : (x.encPre w).S = x.S := rfl
@[simp] theorem Scratch.encPre_L : (x.encPre w).L = x.L := rfl
@[simp] theorem Scratch.encPre_blk : (x.encPre w).blk = x.blk := rfl
@[simp] theorem Scratch.encPre_i : (x.encPre w).i = x.i := rfl
@[simp] theorem Scratch.encPre_j : (x.encPre w).j = x.j := rfl
@[simp] theorem Scratch.encPre_k : (x.encPre w).k = x.k := rfl
@[simp] theorem Scratch.encPre_r : (x.encPre w).r = x.r := rfl

@[simp] theorem Scratch.decPost_a : (x.decPost w).a = subW w x.a (readTable x.S 0) := rfl
@[simp] theorem Scratch.decPost_b : (x.decPost w).b = subW w x.b (readTable x.S 1) := rfl
@[simp] theorem Scratch.decPost_ka : (x.decPost w).ka = x.ka := rfl
@[simp] theorem Scratch.decPost_kb : (x.decPost w).kb = x.kb := rfl
@[simp] theorem Scratch.decPost_S : (x.decPost w).S = x.S := rfl
@[simp] theorem Scratch.decPost_L : (x.decPost w).L = x.L := rfl
@[simp] theorem Scratch.decPost_blk : (x.decPost w).blk = x.blk := rfl
@[simp] theorem Scratch.decPost_i : (x.decPost w).i = x.i := rfl
@[simp] theorem Scratch.decPost_j : (x.decPost w).j = x.j := rfl
@[simp] theorem Scratch.decPost_k : (x.decPost w).k = x.k := rfl
@[simp] theorem Scratch.decPost_r : (x.decPost w).r = x.r := rfl

@[simp] theorem Scratch.encRound_a (r : Nat) : (x.encRound w r).a = encHalf w x.a x.b (readTable x.S (2 * r)) := rfl
@[simp] theorem Scratch.encRound_b (r : Nat) :
    (x.encRound w r).b = encHalf w x.b (x.encRound w r).a (readTable x.S (2 * r + 1)) := rfl
@[simp] theorem Scratch.encRound_ka (r : Nat) : (x.encRound w r).ka = x.ka := rfl
@[simp] theorem Scratch.encRound_kb (r : Nat) : (x.encRound w r).kb = x.kb := rfl
@[simp] theorem Scratch.encRound_S (r : Nat) : (x.encRound w r).S = x.S := rfl
@[simp] theorem Scratch.encRound_L (r : Nat) : (x.encRound w r).L = x.L := rfl
@[simp] theorem Scratch.encRound_blk (r : Nat) : (x.encRound w r).blk = x.blk := rfl
@[simp] theorem Scratch.encRound_i (r : Nat) : (x.encRound w r).i = x.i := rfl
@[simp] theorem Scratch.encRound_j (r : Nat) : (x.encRound w r).j = x.j := rfl
@[simp] theorem Scratch.encRound_k (r : Nat) : (x.encRound w r).k = x.k := rfl
@[simp] theorem Scratch.encRound_r (r : Nat) : (x.encRound w r).r = r := rfl

@[simp] theorem Scratch.decRound_a (r : Nat) :
    (x.decRound w r).a = decHalf w x.a (x.decRound w r).b (readTable x.S (2 * r)) := rfl
@[simp] theorem Scratch.decRound_b (r : Nat) :
    (x.decRound w r).b = decHalf w x.b x.a (readTable x.S (2 * r + 1)) := rfl
@[simp] theorem Scratch.decRound_ka (r : Nat) : (x.decRound w r).ka = x.ka := rfl
@[simp] theorem Scratch.decRound_kb (r : Nat) : (x.decRound w r).kb = x.kb := rfl
@[simp] theorem Scratch.decRound_S (r : Nat) : (x.decRound w r).S = x.S := rfl
@[simp] theorem Scratch.decRound_L (r : Nat) : (x.decRound w r).L = x.L := rfl
@[simp] theorem Scratch.decRound_blk (r : Nat) : (x.decRound w r).blk = x.blk := rfl
@[simp] theorem Scratch.decRound_i (r : Nat) : (x.decRound w r).i = x.i := rfl
@[simp] theorem Scratch.decRound_j (r : Nat) : (x.decRound w r).j = x.j := rfl
@[simp] theorem Scratch.decRound_k (r : Nat) : (x.decRound w r).k = x.k := rfl
@[simp] theorem Scratch.decRound_r (r : Nat) : (x.decRound w r).r = r := rfl

@[simp] theorem Scratch.mixStep_a : (x.mixStep g).a = x.a := rfl
@[simp] theorem Scratch.mixStep_b : (x.mixStep g).b = x.b := rfl
@[simp] theorem Scratch.mixStep_ka : (x.mixStep g).ka = mixA g.w (readTable x.S x.i) x.ka x.kb := rfl
@[simp] theorem Scratch.mixStep_kb : (x.mixStep g).kb = mixB g.w (readTable x.L x.j) (x.mixStep g).ka x.kb := rfl
@[simp] theorem Scratch.mixStep_S : (x.mixStep g).S = writeTable x.S x.i (x.mixStep g).ka := rfl
@[simp] theorem Scratch.mixStep_L : (x.mixStep g).L = writeTable x.L x.j (x.mixStep g).kb := rfl
@[simp] theorem Scratch.mixStep_blk : (x.mixStep g).blk = x.blk := rfl
@[simp] theorem Scratch.mixStep_i : (x.mixStep g).i = (x.i + 1) % g.t := rfl
@[simp] theorem Scratch.mixStep_j : (x.mixStep g).j = (x.j + 1) % g.c := rfl
@[simp] theorem Scratch.mixStep_k : (x.mixStep g).k = x.k + 1 := rfl
@[simp] theorem Scratch.mixStep_r : (x.mixStep g).r = x.r := rfl

@[simp] theorem Scratch.pushL_a : (x.pushL g).a = x.a := rfl
@[simp] theorem Scratch.pushL_b : (x.pushL g).b = x.b := rfl
@[simp] theorem Scratch.pushL_ka : (x.pushL g).ka = x.ka := rfl
@[simp] theorem Scratch.pushL_kb : (x.pushL g).kb = x.kb := rfl
@[simp] theorem Scratch.pushL_S : (x.pushL g).S = x.S := rfl
@[simp] theorem Scratch.pushL_L : (x.pushL g).L = x.L ++ [keyWord g x.L.length] := rfl
@[simp] theorem Scratch.pushL_blk : (x.pushL g).blk = x.blk := rfl
@[simp] theorem Scratch.pushL_i : (x.pushL g).i = x.i := rfl
@[simp] theorem Scratch.pushL_j : (x.pushL g).j = x.j := rfl
@[simp] theorem Scratch.pushL_k : (x.pushL g).k = x.k := rfl
@[simp] theorem Scratch.pushL_r : (x.pushL g).r = x.r := rfl

@[simp] theorem Scratch.pushS_a : (x.pushS g).a = x.a := rfl
@[simp] theorem Scratch.pushS_b : (x.pushS g).b = x.b := rfl
@[simp] theorem Scratch.pushS_ka : (x.pushS g).ka = x.ka := rfl
@[simp] theorem Scratch.pushS_kb : (x.pushS g).kb = x.kb := rfl
@[simp] theorem Scratch.pushS_S : (x.pushS g).S = x.S ++ [initWord g x.S.length] := rfl
@[simp] theorem Scratch.pushS_L : (x.pushS g).L = x.L := rfl
@[simp] theorem Scratch.pushS_blk : (x.pushS g).blk = x.blk := rfl
@[simp] theorem Scratch.pushS_i : (x.pushS g).i = x.i := rfl
@[simp] theorem Scratch.pushS_j : (x.pushS g).j = x.j := rfl
@[simp] theorem Scratch.pushS_k : (x.pushS g).k = x.k := rfl
@[simp] theorem Scratch.pushS_r : (x.pushS g).r = x.r := rfl

end Sys2Proof.Machine
end

