-- ==== Sys2Proof/Laws/KeySchedule.lean ====
section
/-! SUPPORT. What the key schedule reads, writes and leaves: scratch contents before it do not matter (rule R33), the table
has `t` words of width `W`, and the indices of the mixing loop stay inside their tables. -/

namespace Sys2Proof.Machine

/-- `x` with the registers the key schedule does not touch: the block words, `BLK` and the round number. -/
def Scratch.withBlockRegs (a b : Word) (blk : List Byte) (r : Nat) (x : Scratch) : Scratch :=
  { x with a := a, b := b, blk := blk, r := r }

/-- Mixing neither reads nor writes the registers of the block (rule R27). -/
theorem mixStep_withBlockRegs (g : KeyInputs) (a b : Word) (blk : List Byte) (r : Nat) (x : Scratch) :
    (x.withBlockRegs a b blk r).mixStep g = (x.mixStep g).withBlockRegs a b blk r := rfl

/-- Everything `KeySchedule` does to scratch state: the block's registers keep their values and the rest is a function of
the inputs (rules R33, R115). -/
theorem keySchedule_eq (g : KeyInputs) (x : Scratch) :
    x.keySchedule g = (Scratch.reset.keySchedule g).withBlockRegs x.a x.b x.blk x.r := by
  have h : Function.Semiconj (Scratch.withBlockRegs x.a x.b x.blk x.r) (Scratch.mixStep g) (Scratch.mixStep g) :=
    fun y => (mixStep_withBlockRegs g x.a x.b x.blk x.r y).symm
  exact (h.iterate_right g.nMix ((Scratch.reset.buildL g).initS g).mixInit).symm

theorem keySchedule_S (g : KeyInputs) (x : Scratch) : (x.keySchedule g).S = keyTable g := by
  rw [keySchedule_eq]; rfl

theorem keySchedule_a (g : KeyInputs) (x : Scratch) : (x.keySchedule g).a = x.a := by rw [keySchedule_eq]; rfl

theorem keySchedule_b (g : KeyInputs) (x : Scratch) : (x.keySchedule g).b = x.b := by rw [keySchedule_eq]; rfl

theorem KeyInputs.t_pos (g : KeyInputs) : 0 < g.t := by simp [KeyInputs.t]

theorem KeyInputs.c_pos (g : KeyInputs) : 0 < g.c := by simp [KeyInputs.c]

theorem KeyInputs.nMix_pos (g : KeyInputs) : 0 < g.nMix := by
  have := g.t_pos
  simp only [KeyInputs.nMix]; omega

/-- The shape of the mixing registers: both tables at their lengths and both indices inside them (rules R30, R51). -/
structure MixShape (g : KeyInputs) (x : Scratch) : Prop where
  S : x.S.length = g.t
  L : x.L.length = g.c
  i : x.i < g.t
  j : x.j < g.c

theorem mixShape_start (g : KeyInputs) (x : Scratch) : MixShape g ((x.buildL g).initS g).mixInit :=
  ⟨by simp, by simp, g.t_pos, g.c_pos⟩

theorem mixShape_mixStep {g : KeyInputs} {x : Scratch} (h : MixShape g x) : MixShape g (x.mixStep g) :=
  ⟨by simp [writeTable, h.S], by simp [writeTable, h.L], Nat.mod_lt _ g.t_pos, Nat.mod_lt _ g.c_pos⟩

theorem mixShape_iterate {g : KeyInputs} {x : Scratch} (h : MixShape g x) (n : Nat) :
    MixShape g ((Scratch.mixStep g)^[n] x) := by
  induction n with
  | zero => exact h
  | succ n ih => rw [Function.iterate_succ_apply']; exact mixShape_mixStep ih

/-- The key schedule has `t` words (rule R28). -/
@[simp] theorem keyTable_length (g : KeyInputs) : (keyTable g).length = g.t :=
  (mixShape_iterate (mixShape_start g Scratch.reset) g.nMix).S

/-- Every word of a table written at one place is a `W`-bit word. -/
theorem isWord_writeTable {w : Width} {table : List Word} {v : Word} (n : Nat) (h : ∀ u ∈ table, IsWord w u)
    (hv : IsWord w v) : ∀ u ∈ writeTable table n v, IsWord w u := by
  intro u hu
  rcases List.mem_or_eq_of_mem_set hu with hu | rfl
  · exact h u hu
  · exact hv

theorem isWord_initWord (g : KeyInputs) (n : Nat) : IsWord g.w (initWord g n) := isWord_addW ..

theorem isWord_mixA (w : Width) (si ka kb : Word) : IsWord w (mixA w si ka kb) := isWord_rotlW ..

theorem isWord_mixB (w : Width) (lj ka kb : Word) : IsWord w (mixB w lj ka kb) := isWord_rotlW ..

/-- Every word of the key schedule is a `W`-bit word (rule R28). -/
theorem isWord_keyTable (g : KeyInputs) : ∀ v ∈ keyTable g, IsWord g.w v := by
  suffices h : ∀ n x, (∀ v ∈ x.S, IsWord g.w v) → ∀ v ∈ ((Scratch.mixStep g)^[n] x).S, IsWord g.w v by
    apply h
    intro v hv
    simp only [Scratch.mixInit_S, Scratch.initS_S, List.mem_map] at hv
    obtain ⟨n, -, rfl⟩ := hv
    exact isWord_initWord g n
  intro n
  induction n with
  | zero => exact fun x h => h
  | succ n ih => exact fun x h => ih _ (isWord_writeTable x.i h (isWord_mixA ..))

/-- A key schedule read at any index is a word. -/
theorem isWord_readTable {w : Width} {table : List Word} (h : ∀ v ∈ table, IsWord w v) (n : Nat) :
    IsWord w (readTable table n) := by
  rw [readTable]
  rcases Nat.lt_or_ge n table.length with hn | hn
  · rw [List.getD_eq_getElem _ _ hn]; exact h _ (List.getElem_mem hn)
  · rw [List.getD_eq_default _ _ hn]; exact isWord_zero w

/-- With no cache or a good one, the schedule a command uses is the key schedule of its inputs (rule R34). -/
theorem schedule_S {s : State} {g : KeyInputs} (h : s.CacheOk) (hg : s.keyInputs? = some g) (x : Scratch) :
    (s.schedule g x).S = keyTable g := by
  unfold State.schedule
  split
  · rename_i table hc
    obtain ⟨-, -, g', hg', rfl⟩ := h table hc
    rw [hg] at hg'
    cases hg'
    rfl
  · exact keySchedule_S g x

/-- `State.schedule` leaves the block words alone. -/
theorem schedule_ab (s : State) (g : KeyInputs) (x : Scratch) :
    (s.schedule g x).a = x.a ∧ (s.schedule g x).b = x.b := by
  unfold State.schedule
  split
  · exact ⟨rfl, rfl⟩
  · exact ⟨keySchedule_a g x, keySchedule_b g x⟩

end Sys2Proof.Machine
end

