-- ==== Sys2Proof/Laws/Commands.lean ====
section
/-! SUPPORT. What each command can do, said once: an error, or its one successful outcome, or the fault of an illegal word
size. -/

namespace Sys2Proof.Machine

variable {s t : State}

/-- A response writes nothing persistent (rules R26, R33). -/
theorem respond_answered (s : State) (status : Status) (payload : List Byte) :
    AnsweredWith s (s.respond status payload) (responsePacket status payload) :=
  ⟨⟨rfl, rfl, rfl, rfl, rfl, rfl, rfl⟩, rfl, rfl, rfl⟩

/-- The machine's status numbers are those of rule R71. -/
theorem Status.code_eq (status : Status) : status.code = Ref.code status := by cases status <;> rfl

/-- Raising an error (rule R172). -/
theorem raise_rejected (s : State) (error : Status) : RejectedWith s (s.raise error) error :=
  ⟨⟨⟨rfl, rfl, rfl, rfl, rfl, rfl, rfl⟩, rfl, Status.code_eq error ▸ rfl, rfl⟩, rfl⟩

/-- A successful use of the engine: it may keep the table, and answers. -/
theorem keepTable_respond_answered (s : State) (table : List Word) (status : Status) (payload : List Byte) :
    AnsweredWith s ((s.keepTable table).respond status payload) (responsePacket status payload) :=
  ⟨⟨rfl, rfl, rfl, rfl, rfl, rfl, rfl⟩, rfl, rfl, rfl⟩

/-- `CheckKey` as rule R116 words it. -/
theorem keyPasses_iff : s.keyPasses ↔ s.klen = s.keyBytesLen ∧ s.klen.toNat % s.wordBytes.toNat = 0 := by
  simp [State.keyPasses]

theorem blockPasses_iff {block : List Byte} : s.blockPasses block ↔ block.length = 2 * s.wordBytes.toNat := by
  simp [State.blockPasses]

/-- The configuration tests of `INIT` as rule R86 words them. -/
theorem configLegal_iff {wb : BitVec 8} {rounds kbl : BitVec 32} {key : List Byte} :
    s.configLegal wb rounds kbl key ↔
      (wb = 2 ∨ wb = 4 ∨ wb = 8) ∧ rounds.toNat ≤ s.params.rMax ∧ kbl.toNat ≤ s.params.bMax ∧
        key.length ≤ s.params.bMax := by
  simp [State.configLegal, Width.ofBytes?_isSome, and_assoc]

/-- What the inputs of a command are, in the state's own terms (rule R115). -/
theorem keyInputs?_eq {g : KeyInputs} (h : s.keyInputs? = some g) :
    s.wordBytes.toNat = g.w.bytes ∧ g.rounds = s.rounds.toNat ∧ g.klen = s.klen.toNat ∧ g.key = s.key ∧
      g.q64 = s.params.q64 := by
  unfold State.keyInputs? at h
  obtain ⟨w, hw, rfl⟩ := Option.map_eq_some_iff.mp h
  exact ⟨Width.bytes_of_ofBytes? hw, rfl, rfl, rfl, rfl⟩

/-- An engine with a legal word size has inputs. -/
theorem keyInputs?_of_isSome (h : (Width.ofBytes? s.wordBytes).isSome) : ∃ g, s.keyInputs? = some g := by
  obtain ⟨w, hw⟩ := Option.isSome_iff_exists.mp h
  exact ⟨_, by rw [State.keyInputs?, hw]; rfl⟩

/-- The inputs depend on the configuration, the key and the parameters alone. -/
theorem keyInputs?_congr (hw : t.wordBytes = s.wordBytes) (hr : t.rounds = s.rounds) (hk : t.key = s.key)
    (hl : t.klen = s.klen) (hp : t.params.q64 = s.params.q64) : t.keyInputs? = s.keyInputs? := by
  rw [State.keyInputs?, State.keyInputs?, hw, hr, hk, hl, hp]

/- The outcomes of the commands, by the tests they pass. -/

theorem execInit_configured {wb : BitVec 8} {rounds kbl : BitVec 32} {key : List Byte} (h : s.life = .configured) :
    execInit wb rounds kbl key s = .next (s.raise .invalidState) := by simp [execInit, h]

theorem execInit_illegal {wb : BitVec 8} {rounds kbl : BitVec 32} {key : List Byte} (h : s.life = .unconfigured)
    (hc : ¬s.configLegal wb rounds kbl key) : execInit wb rounds kbl key s = .next (s.raise .invalidConfig) := by
  simp [execInit, h, hc]

theorem execInit_legal {wb : BitVec 8} {rounds kbl : BitVec 32} {key : List Byte} (h : s.life = .unconfigured)
    (hc : s.configLegal wb rounds kbl key) :
    execInit wb rounds kbl key s = .next (((s.construct wb rounds kbl key).fillAtInit).respond .ok []) := by
  simp [execInit, h, hc]

/-- A use before construction (rule R170). -/
theorem exec_unconfigured {i : Instr} (hi : isUse i) (h : s.life = .unconfigured) :
    exec i s = .next (s.raise .invalidState) := by
  cases i with
  | init wb rounds kbl key => cases hi
  | ksched => simp [exec, execKsched, h]
  | encrypt block => simp [exec, execEncrypt, h]
  | decrypt block => simp [exec, execDecrypt, h]

/-- A use with a bad key (rule R166). -/
theorem exec_badKey {i : Instr} (hi : isUse i) (h : s.life = .configured) (hk : ¬s.keyPasses) :
    exec i s = .next (s.raise .invalidKeyLength) := by
  cases i with
  | init wb rounds kbl key => cases hi
  | ksched => simp [exec, execKsched, h, hk]
  | encrypt block => simp [exec, execEncrypt, h, hk]
  | decrypt block => simp [exec, execDecrypt, h, hk]

/-- A block command with a bad block (rule R167). -/
theorem execEncrypt_badBlock {block : List Byte} (h : s.life = .configured) (hk : s.keyPasses)
    (hb : ¬s.blockPasses block) : execEncrypt block s = .next (s.raise .invalidBlockLength) := by
  simp [execEncrypt, h, hk, hb]

theorem execDecrypt_badBlock {block : List Byte} (h : s.life = .configured) (hk : s.keyPasses)
    (hb : ¬s.blockPasses block) : execDecrypt block s = .next (s.raise .invalidBlockLength) := by
  simp [execDecrypt, h, hk, hb]

theorem execKsched_ok {g : KeyInputs} (h : s.life = .configured) (hk : s.keyPasses) (hg : s.keyInputs? = some g) :
    execKsched s =
      .next ((s.keepTable (s.schedule g s.scratch).S).respond .ok (encodeTable g.w (s.schedule g s.scratch).S)) := by
  simp [execKsched, h, hk, hg]

theorem execEncrypt_ok {g : KeyInputs} {block : List Byte} (h : s.life = .configured) (hk : s.keyPasses)
    (hb : s.blockPasses block) (hg : s.keyInputs? = some g) :
    execEncrypt block s =
      .next ((s.keepTable (s.schedule g (s.scratch.decodeBlock g.w block)).S).respond .ok
        ((s.schedule g (s.scratch.decodeBlock g.w block)).encryptLoaded g).blk) := by
  simp [execEncrypt, h, hk, hb, hg]

theorem execDecrypt_ok {g : KeyInputs} {block : List Byte} (h : s.life = .configured) (hk : s.keyPasses)
    (hb : s.blockPasses block) (hg : s.keyInputs? = some g) :
    execDecrypt block s =
      .next ((s.keepTable (s.schedule g (s.scratch.decodeBlock g.w block)).S).respond .ok
        ((s.schedule g (s.scratch.decodeBlock g.w block)).decryptLoaded g).blk) := by
  simp [execDecrypt, h, hk, hb, hg]

/-- Everything a command that uses the engine can do, as one case each: an error by the first test that fails, the fault of
an illegal word size, or its answer. -/
theorem exec_use_cases (i : Instr) (hi : isUse i) (s : State) :
    (∃ error, error ≠ .ok ∧ exec i s = .next (s.raise error)) ∨
    (s.life = .configured ∧ s.keyInputs? = none ∧ exec i s = .fault .illegalWordSize) ∨
    (s.life = .configured ∧ s.keyPasses ∧ ∃ g x payload, s.keyInputs? = some g ∧
      exec i s = .next ((s.keepTable (s.schedule g x).S).respond .ok payload)) := by
  cases hl : s.life with
  | unconfigured => exact .inl ⟨_, by decide, exec_unconfigured hi hl⟩
  | configured =>
    by_cases hk : s.keyPasses
    · cases hg : s.keyInputs? with
      | none =>
        cases i with
        | init wb rounds kbl key => cases hi
        | ksched => exact .inr (.inl ⟨rfl, rfl, by simp [exec, execKsched, hl, hk, hg]⟩)
        | encrypt block =>
          by_cases hb : s.blockPasses block
          · exact .inr (.inl ⟨rfl, rfl, by simp [exec, execEncrypt, hl, hk, hb, hg]⟩)
          · exact .inl ⟨_, by decide, execEncrypt_badBlock hl hk hb⟩
        | decrypt block =>
          by_cases hb : s.blockPasses block
          · exact .inr (.inl ⟨rfl, rfl, by simp [exec, execDecrypt, hl, hk, hb, hg]⟩)
          · exact .inl ⟨_, by decide, execDecrypt_badBlock hl hk hb⟩
      | some g =>
        cases i with
        | init wb rounds kbl key => cases hi
        | ksched => exact .inr (.inr ⟨rfl, hk, g, _, _, rfl, execKsched_ok hl hk hg⟩)
        | encrypt block =>
          by_cases hb : s.blockPasses block
          · exact .inr (.inr ⟨rfl, hk, g, _, _, rfl, execEncrypt_ok hl hk hb hg⟩)
          · exact .inl ⟨_, by decide, execEncrypt_badBlock hl hk hb⟩
        | decrypt block =>
          by_cases hb : s.blockPasses block
          · exact .inr (.inr ⟨rfl, hk, g, _, _, rfl, execDecrypt_ok hl hk hb hg⟩)
          · exact .inl ⟨_, by decide, execDecrypt_badBlock hl hk hb⟩
    · exact .inl ⟨_, by decide, exec_badKey hi hl hk⟩

/-- Everything `INIT` can do. -/
theorem exec_init_cases (wb : BitVec 8) (rounds kbl : BitVec 32) (key : List Byte) (s : State) :
    (∃ error, error ≠ .ok ∧ exec (.init wb rounds kbl key) s = .next (s.raise error)) ∨
    (s.life = .unconfigured ∧ s.configLegal wb rounds kbl key ∧
      exec (.init wb rounds kbl key) s = .next (((s.construct wb rounds kbl key).fillAtInit).respond .ok [])) := by
  cases hl : s.life with
  | configured => exact .inl ⟨_, by decide, execInit_configured hl⟩
  | unconfigured =>
    by_cases hc : s.configLegal wb rounds kbl key
    · exact .inr ⟨rfl, hc, execInit_legal hl hc⟩
    · exact .inl ⟨_, by decide, execInit_illegal hl hc⟩

/-- Everything a step can do, by the next host action. -/
theorem step_cases (s : State) :
    (s.inbox = [] ∧ step s = .next s) ∨
    (∃ rest, s.inbox = .reset :: rest ∧ step s = .next s.takeAction.hostReset) ∨
    (∃ packet rest why, s.inbox = .send packet :: rest ∧ decode packet = .illegal why ∧
      step s = .next (s.takeAction.raise .illegalCommand)) ∨
    (∃ packet rest i, s.inbox = .send packet :: rest ∧ decode packet = .instr i ∧ step s = exec i s.takeAction) := by
  rcases h : s.inbox with _ | ⟨_ | packet, rest⟩
  · exact .inl ⟨rfl, by simp [step, h]⟩
  · exact .inr (.inl ⟨rest, rfl, by simp [step, h]⟩)
  · cases hd : decode packet with
    | illegal why => exact .inr (.inr (.inl ⟨packet, rest, why, rfl, hd, by simp [step, h, hd]⟩))
    | instr i => exact .inr (.inr (.inr ⟨packet, rest, i, rfl, hd, by simp [step, h, hd]⟩))

end Sys2Proof.Machine
end

