-- ==== Sys2Proof/Laws/Decode.lean ====
section
/-! SUPPORT. The packet fields of rule R67 as numbers, both ways. -/

namespace Sys2Proof

/-- A byte appended below a bit vector. -/
theorem toNat_append_byte {n : Nat} (x : BitVec n) (y : Byte) : (x ++ y).toNat = 256 * x.toNat + y.toNat := by
  rw [BitVec.toNat_append, ← Nat.shiftLeft_add_eq_or_of_lt y.isLt, Nat.shiftLeft_eq]
  omega

/-- The value of a 32-bit field (rule R67). -/
theorem fieldOfBytes_toNat (b0 b1 b2 b3 : Byte) :
    (fieldOfBytes b0 b1 b2 b3).toNat = b0.toNat + 256 * b1.toNat + 65536 * b2.toNat + 16777216 * b3.toNat := by
  have h : (fieldOfBytes b0 b1 b2 b3).toNat = ((b3 ++ b2 ++ b1) ++ b0).toNat := rfl
  rw [h, toNat_append_byte, toNat_append_byte, toNat_append_byte]
  omega

/-- A field reassembled from its own bytes. -/
theorem fieldOfBytes_extract (v : BitVec 32) :
    fieldOfBytes (v.extractLsb' 0 8) (v.extractLsb' 8 8) (v.extractLsb' 16 8) (v.extractLsb' 24 8) = v := by
  apply BitVec.eq_of_toNat_eq
  have hv : v.toNat < 2 ^ 32 := v.isLt
  simp only [fieldOfBytes_toNat, BitVec.extractLsb'_toNat, Nat.shiftRight_eq_div_pow]
  omega

/-- The bytes of a field assembled from bytes. -/
theorem bytesOfField_fieldOfBytes (b0 b1 b2 b3 : Byte) : bytesOfField (fieldOfBytes b0 b1 b2 b3) = [b0, b1, b2, b3] := by
  have h0 : b0.toNat < 256 := b0.isLt
  have h1 : b1.toNat < 256 := b1.isLt
  have h2 : b2.toNat < 256 := b2.isLt
  have h3 : b3.toNat < 256 := b3.isLt
  simp only [bytesOfField, List.cons.injEq, and_true]
  refine ⟨?_, ?_, ?_, ?_⟩ <;> apply BitVec.eq_of_toNat_eq <;>
    simp only [BitVec.extractLsb'_toNat, fieldOfBytes_toNat, Nat.shiftRight_eq_div_pow] <;> omega

/- The decoder by opcode (rule R62). -/
theorem decode_nil : decode [] = .illegal .emptyPacket := rfl

theorem decode_init (operands : List Byte) : decode (opInit :: operands) = decodeInit operands := by simp [decode]

theorem decode_ksched (operands : List Byte) : decode (opKsched :: operands) = decodeKsched operands := by
  simp [decode, show opKsched ≠ opInit by decide]

theorem decode_encrypt (operands : List Byte) :
    decode (opEncrypt :: operands) = decodeBlockFormat .encrypt operands := by
  simp [decode, show opEncrypt ≠ opInit by decide, show opEncrypt ≠ opKsched by decide]

theorem decode_decrypt (operands : List Byte) :
    decode (opDecrypt :: operands) = decodeBlockFormat .decrypt operands := by
  simp [decode, show opDecrypt ≠ opInit by decide, show opDecrypt ≠ opKsched by decide,
    show opDecrypt ≠ opEncrypt by decide]

theorem decode_reserved (op : Byte) (operands : List Byte)
    (h : op ≠ opInit ∧ op ≠ opKsched ∧ op ≠ opEncrypt ∧ op ≠ opDecrypt) :
    decode (op :: operands) = .illegal .reservedOpcode := by
  simp [decode, h.1, h.2.1, h.2.2.1, h.2.2.2]

@[simp] theorem bytesOfField_length (v : BitVec 32) : (bytesOfField v).length = 4 := rfl

end Sys2Proof
end

