-- ==== Sys2Proof/Laws/PerInstr.lean ====
section
/-! SUPPORT. One family of facts per command: the opcode and the number of operand bytes of its packet (rules R61 to R66). -/

namespace Sys2Proof.Laws.OperandField

open Sys2Proof

/-- The opcode of a command (rule R62). -/
def opcode : Instr → Byte
  | .init _ _ _ _ => 0x01
  | .ksched => 0x02
  | .encrypt _ => 0x03
  | .decrypt _ => 0x04

/-- The number of bytes after the opcode (rules R63 to R66). -/
def operandBytes : Instr → Nat
  | .init _ _ _ key => 13 + key.length
  | .ksched => 0
  | .encrypt block => 1 + block.length
  | .decrypt block => 1 + block.length

/-- The packet of a command is its opcode and an operand field of its format's length. -/
def Statement (i : Instr) : Prop := ∃ operands, encode i = opcode i :: operands ∧ operands.length = operandBytes i

theorem init (wb : BitVec 8) (rounds kbl : BitVec 32) (key : List Byte) : Statement (.init wb rounds kbl key) :=
  ⟨_, rfl, by simp only [bytesOfField, operandBytes, List.length_cons, List.length_append, List.length_nil]; omega⟩

theorem ksched : Statement .ksched := ⟨[], rfl, rfl⟩

theorem encrypt (block : List Byte) : Statement (.encrypt block) := ⟨_, rfl, Nat.add_comm ..⟩

theorem decrypt (block : List Byte) : Statement (.decrypt block) := ⟨_, rfl, Nat.add_comm ..⟩

end Sys2Proof.Laws.OperandField
end

