-- ==== Sys2Proof/Tests/Slice0.lean ====
section
/-! SUPPORT. Tests whose expected values are the spec's (30_encoding.md, 41_word_ops.md, 95_test_vectors.md), a smoke test of
well-formedness, and one witness for each statement with hypotheses. -/

namespace Sys2Proof.Tests

open Sys2Proof Sys2Proof.Machine

/- ## Helpers -/

/-- Bytes from numbers. -/
def hex (l : List Nat) : List Byte := l.map (BitVec.ofNat 8)

/-- The state after `INITK w=wb r=rounds key=key` (rule R76), scratch as after reset. -/
def engine (wb : BitVec 8) (rounds : BitVec 32) (key : List Byte) : State :=
  { State.reset with
    life := .configured, wordBytes := wb, rounds := rounds, keyBytesLen := BitVec.ofNat 32 key.length, key := key
    klen := BitVec.ofNat 32 key.length }

/-- The responses given so far, where the outcome is a next state. -/
def out : Host.Outcome State Fault Refusal → List Packet
  | .next s => s.outbox
  | .fault _ => []
  | .refused _ => []

/-- The outcome is a configured next state with this configuration and key. -/
def configured (wb : BitVec 8) (rounds kbl klen : BitVec 32) (key : List Byte) :
    Host.Outcome State Fault Refusal → Bool
  | .next s =>
    decide (s.life = .configured ∧ s.wordBytes = wb ∧ s.rounds = rounds ∧ s.keyBytesLen = kbl ∧ s.klen = klen ∧ s.key = key)
  | .fault _ => false
  | .refused _ => false

/- ## Well-formedness: one ill-formed term for each check -/

theorem test_wf_refuses_a_key_of_two_to_the_32 (wb : BitVec 8) (rounds kbl : BitVec 32) :
    (Instr.init wb rounds kbl (List.replicate (2 ^ 32) 0)).wf = false := by
  simp only [Instr.wf, keyFits, List.length_replicate]; decide

theorem test_wf_refuses_an_encrypt_block_of_256 : (Instr.encrypt (List.replicate 256 0)).wf = false := by decide +kernel

theorem test_wf_refuses_a_decrypt_block_of_256 : (Instr.decrypt (List.replicate 256 0)).wf = false := by decide +kernel

theorem test_wf_accepts_the_widest_block : (Instr.encrypt (List.replicate 255 0)).wf = true := by decide +kernel

/- ## Decoding: packets of 30_encoding.md and 95_test_vectors.md section 4, byte by byte -/

/-- The example of rule R85. -/
theorem test_decode_init :
    decode (hex [0x01, 0x04, 0x0C, 0, 0, 0, 0x10, 0, 0, 0, 0x10, 0, 0, 0, 0, 1, 2, 3, 4, 5, 6, 7, 8, 9, 10, 11, 12, 13, 14, 15]) =
      .instr (.init 4 12 16 (hex [0, 1, 2, 3, 4, 5, 6, 7, 8, 9, 10, 11, 12, 13, 14, 15])) := by decide

/-- The field table of rule R63 with every byte different: `rounds` at 2 to 5, `kbl` at 6 to 9, little-endian. -/
theorem test_decode_init_fields :
    decode (hex [0x01, 0x08, 0x11, 0x22, 0x33, 0x44, 0x55, 0x66, 0x77, 0x88, 0x02, 0, 0, 0, 0xAA, 0xBB]) =
      .instr (.init 8 0x44332211 0x88776655 (hex [0xAA, 0xBB])) := by decide

theorem test_decode_ksched : decode [0x02] = .instr .ksched := by decide

theorem test_decode_encrypt :
    decode (hex [0x03, 0x08, 0x00, 0x11, 0x22, 0x33, 0x44, 0x55, 0x66, 0x77]) =
      .instr (.encrypt (hex [0x00, 0x11, 0x22, 0x33, 0x44, 0x55, 0x66, 0x77])) := by decide

theorem test_decode_decrypt :
    decode (hex [0x04, 0x04, 0x09, 0xD7, 0x82, 0x50]) = .instr (.decrypt (hex [0x09, 0xD7, 0x82, 0x50])) := by decide

/-- The refusals of section 4. -/
theorem test_decode_refuses_by_name :
    decode [] = .illegal .emptyPacket ∧ decode [0x00] = .illegal .reservedOpcode ∧
    decode [0x05, 1, 2] = .illegal .reservedOpcode ∧ decode [0xFF] = .illegal .reservedOpcode ∧
    decode [0x02, 0x00] = .illegal .malformed ∧ decode [0x03] = .illegal .malformed ∧
    decode [0x03, 0x08, 0x00, 0x11] = .illegal .malformed ∧ decode [0x01, 0x04, 0x0C] = .illegal .malformed ∧
    decode (hex [0x01, 0x04, 0x0C, 0, 0, 0, 0x10, 0, 0, 0, 0x10, 0, 0, 0, 0, 1, 2, 3, 4, 5, 6, 7, 8, 9, 10, 11, 12, 13, 14]) =
      .illegal .malformed := by decide

/-- The packet of section 4's refused second `INIT`. -/
theorem test_encode_init :
    encode (.init 2 1 2 (hex [1, 2])) = hex [0x01, 0x02, 0x01, 0, 0, 0, 0x02, 0, 0, 0, 0x02, 0, 0, 0, 0x01, 0x02] := by decide

/-- Opcode-table words: the operand bytes are zeros. -/
theorem test_table_words :
    decodeTableWord 8 0x01 = some (.init 0 0 0 []) ∧ decodeTableWord 8 0x02 = some .ksched ∧
    decodeTableWord 8 0x03 = some (.encrypt []) ∧ decodeTableWord 8 0x04 = some (.decrypt []) ∧
    decodeTableWord 8 0x05 = none := by decide

/-- Right after reset `INIT` with `wb = 0` answers `InvalidConfig` and the others `InvalidState` (section 4). -/
theorem test_table_words_run :
    out (step (State.reset.withFetchWord 8 0x01)) = [hex [4, 0, 0, 0, 0]] ∧
    out (step (State.reset.withFetchWord 8 0x02)) = [hex [5, 0, 0, 0, 0]] ∧
    out (step (State.reset.withFetchWord 8 0x03)) = [hex [5, 0, 0, 0, 0]] ∧
    out (step (State.reset.withFetchWord 8 0x04)) = [hex [5, 0, 0, 0, 0]] := by decide

/-- Section 4: an empty, a reserved and a malformed packet answer status `0x03`, before and after construction. -/
theorem test_illegal_packets :
    out (step (State.reset.deliver [])) = [hex [3, 0, 0, 0, 0]] ∧
    out (step (State.reset.deliver [0xFF])) = [hex [3, 0, 0, 0, 0]] ∧
    out (step ((engine 2 0 []).deliver [0x03])) = [hex [3, 0, 0, 0, 0]] := by decide

/- ## Words (41_word_ops.md, 95_test_vectors.md section 2) -/

theorem test_codec :
    leDec (hex [0x34, 0x12]) = 0x1234 ∧ leDec (hex [0x00, 0x11, 0x22, 0x33]) = 0x33221100 ∧
    leDec (hex [0xEF, 0xCD, 0xAB, 0x89, 0x67, 0x45, 0x23, 0x01]) = 0x0123456789ABCDEF ∧
    leEnc .w32 0x9B14DC2D = hex [0x2D, 0xDC, 0x14, 0x9B] ∧ leEnc .w16 0x7865 = hex [0x65, 0x78] := by decide

theorem test_arithmetic :
    addW .w32 0xFFFFFFFF 1 = 0 ∧ addW .w32 0x33221100 0xD447E233 = 0x0769F333 ∧ subW .w16 0x1234 0x8001 = 0x9233 ∧
    mulW .w32 3 0x9E3779B9 = 0xDAA66D2B ∧ xorW .w32 0x80000001 0x12345678 = 0x92345679 := by decide

theorem test_rotations :
    rotlW .w16 0x1234 0xABCD = 0x8246 ∧ rotrW .w16 0x1234 0xABCD = 0x91A0 ∧
    rotlW .w32 0x12345678 0xDEADBEEF = 0x2B3C091A ∧ rotrW .w32 0x12345678 0xDEADBEEF = 0xACF02468 ∧
    rotlW .w64 0x0123456789ABCDEF 0xFEDCBA9876543210 = 0x456789ABCDEF0123 ∧
    rotrW .w64 0x0123456789ABCDEF 0xFFFFFFFFFFFFFFFF = 0x02468ACF13579BDE ∧ rotlW .w32 0x80000001 0x20 = 0x80000001 := by
  decide

/- ## The key schedule and the rounds, step by step (rules R120, R138, R152) -/

/-- The first iteration of rule R120's example, `KA` and `KB`. -/
theorem test_mix_step :
    mixA .w32 0xB7E15163 0 0 = 0xBF0A8B1D ∧ mixB .w32 0x03020100 0xBF0A8B1D 0 = 0xB8419183 := by decide

/-- Both lines of rule R138's example and of rule R152's. -/
theorem test_rounds :
    encHalf .w32 0x0769F333 0x4F954164 0x84FCE219 = 0x14C8078D ∧
    encHalf .w32 0x4F954164 0x14C8078D 0xB93353DE = 0x62107F49 ∧
    decHalf .w32 0x9E8B08CF 0x9B14DC2D 0x15E8E206 = 0xAD58993C ∧
    decHalf .w32 0x9B14DC2D 0xAD58993C 0x7AEC5407 = 0xAFD01B5E := by decide

/- ## Commands: one step each (95_test_vectors.md sections 1, 3, 4, 6) -/

/-- Rule R85's example. -/
theorem test_init_stores_the_configuration :
    configured 4 12 16 16 (hex (List.range 16)) (exec (.init 4 12 16 (hex (List.range 16))) State.reset) ∧
    out (exec (.init 4 12 16 (hex (List.range 16))) State.reset) = [hex [0, 0, 0, 0, 0]] := by decide

/-- Section 4: `wb = 3`, `rounds = 256` and `kbl = 256` are refused, `rounds = 255` is not, and a second `INIT` is an
`InvalidState` that keeps the old configuration. -/
theorem test_init_errors :
    out (exec (.init 3 12 16 (hex (List.range 16))) State.reset) = [hex [4, 0, 0, 0, 0]] ∧
    out (exec (.init 4 256 16 (hex (List.range 16))) State.reset) = [hex [4, 0, 0, 0, 0]] ∧
    out (exec (.init 4 12 256 (hex (List.range 16))) State.reset) = [hex [4, 0, 0, 0, 0]] ∧
    out (exec (.init 4 255 16 (hex (List.range 16))) State.reset) = [hex [0, 0, 0, 0, 0]] ∧
    out (exec (.init 2 1 2 (hex [1, 2])) (engine 4 12 (hex (List.range 16)))) = [hex [5, 0, 0, 0, 0]] ∧
    configured 4 12 16 16 (hex (List.range 16))
      (exec (.init 2 1 2 (hex [1, 2])) (engine 4 12 (hex (List.range 16)))) := by decide

/-- Program P6, and vector T11, where `L` is longer than `S`. -/
theorem test_ksched_vectors :
    out (exec .ksched (engine 2 1 (hex [1, 2]))) =
      [hex [0, 8, 0, 0, 0, 0xEB, 0x71, 0xD1, 0x32, 0xEF, 0x2A, 0xC6, 0xCF]] ∧
    out (exec .ksched (engine 2 0 (hex (List.range 8)))) = [hex [0, 4, 0, 0, 0, 0xD2, 0x64, 0xB9, 0x93]] := by
  decide +kernel

/-- A key of the wrong length and one that is no multiple of the word size (section 4). -/
theorem test_ksched_bad_keys :
    out (exec .ksched { engine 4 12 (hex (List.range 15)) with keyBytesLen := 16 }) = [hex [1, 0, 0, 0, 0]] ∧
    out (exec .ksched (engine 4 12 (hex (List.range 6)))) = [hex [1, 0, 0, 0, 0]] := by decide

/-- The source's vector V1 and the 64-bit vector T9. -/
theorem test_encrypt_vectors :
    out (exec (.encrypt (hex [0x00, 0x11, 0x22, 0x33, 0x44, 0x55, 0x66, 0x77])) (engine 4 12 (hex (List.range 16)))) =
      [hex [0, 8, 0, 0, 0, 0x2D, 0xDC, 0x14, 0x9B, 0xCF, 0x08, 0x8B, 0x9E]] ∧
    out (exec (.encrypt (hex (List.range 16))) (engine 8 1 (hex (List.range 8)))) =
      [hex [0, 16, 0, 0, 0, 0x15, 0x92, 0x6A, 0xFD, 0x6A, 0x2A, 0x9A, 0x5C, 0xAD, 0x6B, 0xC4, 0xBC, 0x07, 0xA8, 0x08, 0xA8]] := by
  decide +kernel

/-- A block of the wrong length, and the priority of the key error (section 4). -/
theorem test_encrypt_errors :
    out (exec (.encrypt (hex [0x00, 0x11, 0x22, 0x33])) (engine 4 12 (hex (List.range 16)))) = [hex [2, 0, 0, 0, 0]] ∧
    out (exec (.encrypt (hex [0x00, 0x11, 0x22, 0x33])) (engine 4 12 (hex (List.range 6)))) = [hex [1, 0, 0, 0, 0]] := by
  decide

/-- The source's vector V2, backwards. -/
theorem test_decrypt_vector :
    out (exec (.decrypt (hex [0x11, 0xE4, 0x3B, 0x86, 0xD2, 0x31, 0xEA, 0x64]))
      (engine 4 12 (hex [0x2B, 0xD6, 0x45, 0x9F, 0x82, 0xC5, 0xB3, 0x00, 0x95, 0x2C, 0x49, 0x10, 0x48, 0x81, 0xFF, 0x48]))) =
      [hex [0, 8, 0, 0, 0, 0xEA, 0x02, 0x47, 0x14, 0xAD, 0x5C, 0x4D, 0x84]] := by
  decide +kernel

/-- Zero rounds and an empty key (program P3), and `DECRYPT` of no bytes (section 4). -/
theorem test_decrypt_corners :
    out (exec (.decrypt (hex [0, 0, 0, 0])) (engine 2 0 [])) = [hex [0, 4, 0, 0, 0, 0x9B, 0x87, 0x0C, 0xCC]] ∧
    out (exec (.decrypt []) (engine 4 12 (hex (List.range 16)))) = [hex [2, 0, 0, 0, 0]] := by
  decide +kernel

/- ## Witnesses: concrete states and operands that meet the hypotheses of each statement. `KschedFollowsItsPseudocode`,
`EncryptFollowsItsPseudocode` and `DecryptFollowsItsPseudocode`: `witness_unconfigured`, `witness_bad_keys`,
`witness_bad_blocks`, `witness_good_block`, one for each clause. -/

/-- A ready engine of program P6. -/
abbrev small : State := engine 2 1 (hex [1, 2])

theorem configOk_engine {wb : BitVec 8} {rounds : BitVec 32} {key : List Byte} (hw : (Width.ofBytes? wb).isSome)
    (hr : rounds.toNat ≤ 255) (hk : key.length ≤ 255) : (engine wb rounds key).ConfigOk := by
  have h : (BitVec.ofNat 32 key.length).toNat = key.length := by
    rw [BitVec.toNat_ofNat]; exact Nat.mod_eq_of_lt (by omega)
  exact ⟨hw, hr, h ▸ hk, h ▸ hk, h.symm⟩

theorem inv_engine {wb : BitVec 8} {rounds : BitVec 32} {key : List Byte} (hw : (Width.ofBytes? wb).isSome)
    (hr : rounds.toNat ≤ 255) (hk : key.length ≤ 255) : (engine wb rounds key).Inv :=
  ⟨⟨show Params.default.Legal by decide, fun _ => configOk_engine hw hr hk, fun _ h => nomatch h⟩, rfl⟩

theorem witness_inv : small.Inv := inv_engine (by decide) (by decide) (by decide)

theorem witness_ready : Ready small := ⟨witness_inv, rfl, by decide, by decide⟩

/-- Every width, the largest round count at reset's limits, and an empty key. -/
theorem witness_ready_boundaries :
    Ready (engine 8 255 []) ∧ Ready (engine 4 0 (hex (List.range 16))) ∧ Ready (engine 2 0 []) :=
  ⟨⟨inv_engine (by decide) (by decide) (by decide), rfl, by decide, by decide⟩,
    ⟨inv_engine (by decide) (by decide) (by decide), rfl, by decide, by decide⟩,
    ⟨inv_engine (by decide) (by decide) (by decide), rfl, by decide, by decide⟩⟩

/-- A configured engine whose key has the wrong length, and one whose key is no multiple of the word size. -/
theorem witness_bad_keys :
    (let s := { engine 4 12 (hex (List.range 15)) with keyBytesLen := 16 }
     s.life = .configured ∧ s.klen ≠ s.keyBytesLen) ∧
    (let s := engine 4 12 (hex (List.range 6))
     s.life = .configured ∧ s.klen = s.keyBytesLen ∧ s.klen.toNat % s.wordBytes.toNat ≠ 0) := by decide

/-- A good key with a bad block: one byte too few and one too many. -/
theorem witness_bad_blocks :
    small.life = .configured ∧ small.klen = small.keyBytesLen ∧ small.klen.toNat % small.wordBytes.toNat = 0 ∧
    (hex [1, 2, 3]).length ≠ 2 * small.wordBytes.toNat ∧ (hex [1, 2, 3, 4, 5]).length ≠ 2 * small.wordBytes.toNat := by decide

theorem witness_good_block : Ready small ∧ (hex [1, 2, 3, 4]).length = 2 * small.wordBytes.toNat :=
  ⟨witness_ready, by decide⟩

theorem witness_unconfigured : State.reset.life = .unconfigured ∧ isUse .ksched ∧ State.reset.Inv :=
  ⟨rfl, rfl, ⟨by decide, (fun h => nomatch h), fun _ h => nomatch h⟩, rfl⟩

theorem witness_EncodeThenDecode :
    (Instr.init 4 12 16 (hex (List.range 16))).wf ∧ Instr.ksched.wf ∧ (Instr.encrypt (List.replicate 255 0)).wf ∧
      (Instr.decrypt []).wf :=
  ⟨by simp [Instr.wf, keyFits, hex], rfl, test_wf_accepts_the_widest_block, rfl⟩

theorem witness_DecodedPacket : decode [0x04, 0x01, 0xAA] = .instr (.decrypt [0xAA]) := by decide

/-- One packet under each clause: a command of every format, an empty packet, a malformed and a reserved one. -/
theorem witness_DecoderFollows :
    Ref.command (hex [0x01, 2, 1, 0, 0, 0, 2, 0, 0, 0, 2, 0, 0, 0, 1, 2]) = some (.init 2 1 2 (hex [1, 2])) ∧
    Ref.command [0x02] = some .ksched ∧ Ref.command [0x03, 0x01, 0xAA] = some (.encrypt [0xAA]) ∧
    Ref.command [0x04, 0x00] = some (.decrypt []) ∧ Ref.command [] = none ∧ Ref.command [0x04] = none ∧
    Ref.command [0x05] = none ∧ Ref.command [0x00] = none := by decide

theorem witness_StepRuns :
    ({ small with inbox := [.send [0x02]] } : State).inbox = .send [0x02] :: [] ∧ decode [0x02] = .instr .ksched ∧
    decodeTableWord 8 0x02 = some .ksched := by decide

theorem witness_Idle : State.reset.inbox = [] := rfl

theorem witness_Illegal :
    ({ small with inbox := [.send []] } : State).inbox = .send [] :: [] ∧ Ref.command [] = none := by decide

theorem witness_Reset : ({ small with inbox := [.reset] } : State).inbox = .reset :: [] := by decide

/-- Each clause of `INIT`: at the limits, one past each limit, and a configured engine. -/
theorem witness_Init :
    small.life = .configured ∧ State.reset.life = .unconfigured ∧ State.reset.params.Legal ∧
    State.reset.params.rMax < (256 : BitVec 32).toNat ∧ State.reset.params.bMax < (256 : BitVec 32).toNat ∧
    State.reset.params.bMax < (List.replicate 256 (0 : Byte)).length ∧
    (255 : BitVec 32).toNat ≤ State.reset.params.rMax ∧ (255 : BitVec 32).toNat ≤ State.reset.params.bMax ∧
    (List.replicate 255 (0 : Byte)).length ≤ State.reset.params.bMax := by decide +kernel

theorem witness_Boot :
    State.reset.Inv ∧ State.reset.life = .unconfigured ∧ (12 : BitVec 32).toNat ≤ State.reset.params.rMax ∧
    (16 : BitVec 32).toNat ≤ State.reset.params.bMax ∧ (hex (List.range 16)).length = (16 : BitVec 32).toNat ∧
    (hex (List.range 16)).length % (4 : BitVec 8).toNat = 0 :=
  ⟨witness_unconfigured.2.2, by decide⟩

/-- A key shorter than configured, and one of six bytes under 32-bit words (program P2). -/
theorem witness_BadKey :
    State.reset.Inv ∧ State.reset.life = .unconfigured ∧ (hex (List.range 15)).length ≤ State.reset.params.bMax ∧
    (hex (List.range 15)).length ≠ (16 : BitVec 32).toNat ∧ (hex (List.range 6)).length % (4 : BitVec 8).toNat ≠ 0 :=
  ⟨witness_unconfigured.2.2, by decide⟩

theorem witness_UsesWrite : isUse .ksched ∧ (∃ t, exec .ksched small = .next t) ∧ small.params.cache = .never :=
  ⟨rfl, ⟨_, execKsched_ok (s := small) rfl (by decide) rfl⟩, rfl⟩

/-- Two lifetimes with the same key, word size and rounds, the second after some use. -/
theorem witness_Bijection :
    Ready small ∧ Ready { small with outbox := [[0, 0, 0, 0, 0]] } ∧ (hex [1, 2, 3, 4]).length = 2 * small.wordBytes.toNat :=
  ⟨witness_ready, ⟨⟨⟨by decide, fun _ => ⟨by decide, by decide, by decide, by decide, by decide⟩, fun _ h => nomatch h⟩, rfl⟩,
    rfl, by decide, by decide⟩, by decide⟩

/-- What a command reads of the engine `small`. -/
def smallInputs : KeyInputs := { w := .w16, rounds := 1, klen := 2, key := hex [1, 2], q64 := 0 }

theorem witness_ExpandedKey :
    smallInputs.key.length = smallInputs.klen ∧ smallInputs.klen % smallInputs.w.bytes = 0 ∧ smallInputs.klen ≠ 0 ∧
    (let g := { smallInputs with klen := 0, key := [] }; g.key.length = g.klen ∧ g.klen % g.w.bytes = 0 ∧ g.klen = 0) := by
  decide

/-- The tables of vector T3 before mixing, with both indices at their last entry. -/
theorem witness_MixStep :
    (let x := { Scratch.reset with S := [0xB7E1, 0x5618, 0xF44F, 0x9286], L := [0x0201], i := 3, j := 0, ka := 0xFFFF, kb := 1 }
     x.i < x.S.length ∧ x.j < x.L.length ∧ IsWord .w16 x.ka ∧ IsWord .w16 x.kb ∧ (∀ v ∈ x.S, IsWord .w16 v) ∧
       (∀ v ∈ x.L, IsWord .w16 v)) := by simp [IsWord, Width.bits]

/-- The second round of a four-word table, its last index inside the table. -/
theorem witness_Rounds :
    (let x := { Scratch.reset with a := 0x1234, b := 0xFFFF, S := [1, 2, 3, 0xFFFF] }
     IsWord .w16 x.a ∧ IsWord .w16 x.b ∧ (∀ v ∈ x.S, IsWord .w16 v) ∧ 2 * 1 + 1 < x.S.length) := by
  simp [IsWord, Width.bits]

theorem witness_words :
    IsWord .w16 0xFFFF ∧ IsWord .w32 0xFFFFFFFF ∧ IsWord .w64 0xFFFFFFFFFFFFFFFF ∧ (hex [1, 2]).length = Width.w16.bytes ∧
    (hex [1, 2, 3, 4]).length = 2 * Width.w16.bytes := by
  simp [IsWord, Width.bits, Width.bytes, hex]

theorem witness_EveryStepKeeps : small.Inv ∧ step small = .next small := ⟨witness_inv, rfl⟩

/-- The fault is reached: a configured engine with a word size of 3 bytes. -/
theorem witness_Fault : step { engine 3 0 [] with inbox := [.send [0x02]] } = .fault .illegalWordSize := by rfl

/-- A ready engine with one packet pending: its answer is `OK` for `KSCHED` and an error for an empty block. -/
theorem witness_packets :
    ({ small with inbox := [.send [0x02]] } : State).Inv ∧ Ref.status small (decode [0x02]) = .ok ∧
    Ref.status small (decode [0x03, 0x00]) = .invalidBlockLength :=
  ⟨⟨⟨by decide, fun _ => ⟨by decide, by decide, by decide, by decide, by decide⟩, fun _ h => nomatch h⟩, rfl⟩, by decide,
    by decide⟩

theorem witness_Errors :
    small.Inv ∧ small.inbox = [] ∧ Ref.status small (decode [0x03, 0x00]) ≠ .ok ∧
    ∃ t, step (small.deliver [0x03, 0x00]) = .next t :=
  ⟨witness_inv, rfl, by decide, _, execEncrypt_badBlock (s := small) (block := []) rfl (by decide) (by decide)⟩

theorem witness_Immutable : small.life = .configured ∧ small.inbox.head? ≠ some .reset ∧ step small = .next small :=
  ⟨rfl, by decide, rfl⟩

theorem witness_ResponsesDepend :
    small.Inv ∧ small.life = .configured ∧ SameConfig small { small with outbox := [[0, 0, 0, 0, 0]], draws := 7 } :=
  ⟨witness_inv, rfl, rfl, rfl, rfl, rfl, rfl, rfl, rfl⟩

theorem witness_UsesCommute : small.Inv ∧ small.life = .configured ∧ isUse .ksched ∧ isUse (.encrypt (hex [1, 2, 3, 4])) :=
  ⟨witness_inv, rfl, rfl, rfl⟩

/-- Vector T1 with its key schedule in the cache. -/
def cached : State :=
  { engine 2 0 [] with params := { Params.default with cache := .onUse }, sCache := some [0x7865, 0x33F4] }

theorem witness_Cache : cached.Inv := by
  refine ⟨⟨by decide, fun _ => ⟨by decide, by decide, by decide, by decide, by decide⟩, ?_⟩, rfl⟩
  intro table h
  cases h
  exact ⟨rfl, by decide, { w := .w16, rounds := 0, klen := 0, key := [], q64 := 0x9E3779B97F4A7C15 }, rfl, by decide +kernel⟩

/-- The cached engine and one that has no cache and other scratch contents. -/
theorem witness_Indistinguishable :
    cached.Inv ∧ (engine 2 0 []).Inv ∧ Indistinguishable cached (engine 2 0 []) :=
  ⟨witness_Cache, inv_engine (by decide) (by decide) (by decide), rfl, rfl, rfl, rfl, rfl, rfl,
    fun _ => ⟨rfl, rfl, rfl, rfl, rfl⟩⟩

theorem witness_OnlyInit :
    ∃ t, State.reset.life = .unconfigured ∧
      step (State.reset.deliver (encode (.init 2 0 0 []))) = .next t ∧
      t.outbox = State.reset.outbox ++ [responsePacket .ok []] :=
  ⟨_, rfl, execInit_legal (s := State.reset) (wb := 2) (rounds := 0) (kbl := 0) (key := []) rfl (by decide), rfl⟩

/-- A failing command, an `INIT`, and a command whose tests pass. -/
theorem witness_Sequencer :
    Ref.status State.reset (.instr .ksched) ≠ .ok ∧ isUse (.init 2 0 0 []) = false ∧
    Ref.status small (.instr (.encrypt (hex [1, 2, 3, 4]))) = .ok ∧ small.keyInputs?.isSome := by decide

/-- Inside a command: the sequencer about to build the last key word of `small`. -/
theorem witness_SequencerInv :
    ({ small with phase := .ksL, scratch := { Scratch.reset with L := [] } } : State).SequencerInv ∧ isUse .ksched := by
  refine ⟨⟨⟨by decide, fun _ => ⟨by decide, by decide, by decide, by decide, by decide⟩, fun _ h => nomatch h⟩, ?_⟩, rfl⟩
  exact fun _ _ => ⟨rfl, by decide, _, rfl, by decide, rfl⟩

theorem witness_Counters : small.PersistentOk ∧ small.life = .configured ∧ small.keyInputs?.isSome :=
  ⟨witness_inv.persistent, rfl, rfl⟩

/-- A tick of each kind the clauses speak of: into the key schedule, an `INIT` to its end, past pre-whitening with one round
and with none, and the last round of each datapath. -/
theorem witness_Phases :
    (∃ t, small.startCommand.tick .ksched = .next t ∧ t.phase = .ksL) ∧
    (∃ t, State.reset.startCommand.tick (.init 2 0 0 []) = .next t ∧ t.phase = .idle) ∧
    (∃ t, ({ small with phase := .encPre } : State).tick (.encrypt []) = .next t ∧ t.phase = .encRnd ∧ t.scratch.r = 1) ∧
    (∃ t, ({ engine 2 0 [] with phase := .encPre } : State).tick (.encrypt []) = .next t ∧ t.phase = .out) ∧
    (∃ t, ({ small with phase := .encRnd, scratch := { Scratch.reset with r := 1 } } : State).tick (.encrypt []) = .next t ∧
      t.phase = .out) ∧
    (∃ t, ({ small with phase := .decRnd, scratch := { Scratch.reset with r := 1 } } : State).tick (.decrypt []) = .next t ∧
      t.phase = .decPost) :=
  ⟨⟨_, rfl, rfl⟩, ⟨_, rfl, rfl⟩, ⟨_, rfl, rfl, rfl⟩, ⟨_, rfl, rfl⟩, ⟨_, rfl, rfl⟩, ⟨_, rfl, rfl⟩⟩

end Sys2Proof.Tests
end

/-! ### Scope: the invariant, one step, and the sequencer against the atomic command -/

namespace Sys2Proof.Machine

/-! #### The invariant (rules R14, R22 to R25, R34) -/

section Invariant

variable {s t : State}

theorem SameConfig.keyInputs? (h : SameConfig s t) : t.keyInputs? = s.keyInputs? :=
  keyInputs?_congr h.wordBytes h.rounds h.key h.klen (by rw [h.params])

theorem SameConfig.keyPasses (h : SameConfig s t) : t.keyPasses = s.keyPasses := by
  rw [State.keyPasses, State.keyPasses, h.klen, h.keyBytesLen, h.wordBytes]

theorem SameConfig.configOk (h : SameConfig s t) (hs : s.ConfigOk) : t.ConfigOk := by
  obtain ⟨width, rounds, keyBytesLen, klen, key⟩ := hs
  constructor
  · rwa [h.wordBytes]
  · rwa [h.rounds, h.params]
  · rwa [h.keyBytesLen, h.params]
  · rwa [h.klen, h.params]
  · rwa [h.key, h.klen]

/-- A valid cache stays one while the configuration and the cache do not change. -/
theorem SameConfig.cacheOk (h : SameConfig s t) (hc : t.sCache = s.sCache) (hs : s.CacheOk) : t.CacheOk := by
  unfold State.CacheOk
  rw [hc, h.life, h.keyPasses, h.keyInputs?]
  exact hs

/-- After a command that leaves the configuration, only the cache is left to be looked at. -/
theorem AnsweredWith.inv {response : Packet} (h : AnsweredWith s t response) (hs : s.PersistentOk) (hc : t.CacheOk) :
    t.Inv :=
  ⟨⟨h.config.params ▸ hs.params, fun hl => h.config.configOk (hs.config (h.config.life ▸ hl)), hc⟩, h.phase⟩

theorem inv_raise (hs : s.PersistentOk) (error : Status) : (s.raise error).Inv :=
  let h := raise_rejected s error
  h.answered.inv hs (h.answered.config.cacheOk h.cache hs.cache)

/-- A use leaves the cache as it was, or holding the table it used (rule R34). -/
theorem cacheAfterUse_eq (s : State) (table : List Word) :
    s.cacheAfterUse table = s.sCache ∨ s.cacheAfterUse table = some table := by
  cases h : s.params.cache <;> simp [State.cacheAfterUse, h]

theorem sameConfig_fillAtInit (s : State) : SameConfig s s.fillAtInit := ⟨rfl, rfl, rfl, rfl, rfl, rfl, rfl⟩

theorem sameConfig_takeAction (s : State) : SameConfig s s.takeAction := ⟨rfl, rfl, rfl, rfl, rfl, rfl, rfl⟩

/-- Keeping the key schedule of an engine whose key passes leaves a valid cache. -/
theorem cacheOk_keepTable {g : KeyInputs} (hs : s.CacheOk) (hl : s.life = .configured) (hk : s.keyPasses)
    (hg : s.keyInputs? = some g) : (s.keepTable (keyTable g)).CacheOk := by
  intro table htable
  rw [State.keepTable_sCache] at htable
  rcases cacheAfterUse_eq s (keyTable g) with h | h
  · exact hs table (h ▸ htable)
  · exact ⟨hl, hk, g, hg, Option.some.inj (htable.symm.trans h)⟩

/-- `INIT` fills the cache only with the key schedule of a key that passes (rule R90). -/
theorem cacheOk_fillAtInit (hl : s.life = .configured) : s.fillAtInit.CacheOk := by
  intro table htable
  rw [State.fillAtInit_sCache] at htable
  cases hp : s.params.cache with
  | never => simp [State.cacheAfterInit, hp] at htable
  | onUse => simp [State.cacheAfterInit, hp] at htable
  | atInit =>
    simp only [State.cacheAfterInit, hp, Option.ite_none_right_eq_some, Option.map_eq_some_iff] at htable
    obtain ⟨hk, g, hg, rfl⟩ := htable
    exact ⟨hl, hk, g, hg, rfl⟩

/-- What the tests of `INIT` establish of the configuration it stores; the key's length fits `klen` because the limits are
legal (rules R14, R86). -/
theorem configOk_construct {wb : BitVec 8} {rounds kbl : BitVec 32} {key : List Byte} (hp : s.params.Legal)
    (hc : s.configLegal wb rounds kbl key) : (s.construct wb rounds kbl key).ConfigOk := by
  obtain ⟨hw, hr, hb, hk⟩ := configLegal_iff.mp hc
  have hlen : (BitVec.ofNat 32 key.length).toNat = key.length := by
    rw [BitVec.toNat_ofNat]
    exact Nat.mod_eq_of_lt (by have := hp.2; omega)
  exact ⟨Width.ofBytes?_isSome.mpr hw, hr, hb, hlen.trans_le hk, hlen.symm⟩

theorem exec_init_keeps_inv {wb : BitVec 8} {rounds kbl : BitVec 32} {key : List Byte} (hs : s.PersistentOk)
    (h : exec (.init wb rounds kbl key) s = .next t) : t.Inv := by
  rcases exec_init_cases wb rounds kbl key s with ⟨error, -, he⟩ | ⟨-, hc, he⟩ <;> rw [he] at h <;> cases h
  · exact inv_raise hs error
  · have hcache := cacheOk_fillAtInit (s := s.construct wb rounds kbl key) rfl
    have hconfig := (sameConfig_fillAtInit _).configOk (configOk_construct hs.params hc)
    exact (respond_answered _ .ok []).inv ⟨hs.params, fun _ => hconfig, hcache⟩ hcache

theorem exec_use_keeps_inv {i : Instr} (hi : isUse i) (hs : s.PersistentOk) (h : exec i s = .next t) : t.Inv := by
  rcases exec_use_cases i hi s with ⟨error, -, he⟩ | ⟨-, -, he⟩ | ⟨hl, hk, g, x, payload, hg, he⟩ <;>
    rw [he] at h <;> cases h
  · exact inv_raise hs error
  · rw [schedule_S hs.cache hg]
    exact (keepTable_respond_answered s _ .ok payload).inv hs (cacheOk_keepTable hs.cache hl hk hg)

/-- A command that answers leaves a good state, whatever the phase it began in. -/
theorem exec_keeps_inv {i : Instr} (hs : s.PersistentOk) (h : exec i s = .next t) : t.Inv := by
  cases i with
  | init wb rounds kbl key => exact exec_init_keeps_inv hs h
  | ksched => exact exec_use_keeps_inv rfl hs h
  | encrypt block => exact exec_use_keeps_inv rfl hs h
  | decrypt block => exact exec_use_keeps_inv rfl hs h

/-- Taking a host action touches nothing persistent but the pending actions. -/
theorem persistentOk_takeAction (hs : s.PersistentOk) : s.takeAction.PersistentOk :=
  let h := sameConfig_takeAction s
  ⟨hs.params, fun hl => h.configOk (hs.config hl), h.cacheOk rfl hs.cache⟩

/-- Reset makes a good state of any with legal limits: nothing is configured and no cache is valid (rule R191). -/
theorem inv_hostReset (hp : s.params.Legal) : s.hostReset.Inv :=
  ⟨⟨hp, (fun h => nomatch h), (fun _ h => nomatch h)⟩, rfl⟩

end Invariant

/-- Settles O33: each case of `step_cases` answers a good state. -/
theorem everyStepKeepsTheInvariant : Obligations.EveryStepKeepsTheInvariant := by
  intro s t hs ht
  have htaken := persistentOk_takeAction hs.persistent
  rcases step_cases s with ⟨-, h⟩ | ⟨rest, -, h⟩ | ⟨packet, rest, why, -, -, h⟩ | ⟨packet, rest, i, -, -, h⟩ <;>
    rw [h] at ht
  · cases ht; exact hs
  · cases ht; exact inv_hostReset htaken.params
  · cases ht; exact inv_raise htaken .illegalCommand
  · exact exec_keeps_inv htaken ht

/-- Settles O32: nothing is configured, no cache is valid and the default limits are legal. -/
theorem resetMeetsTheInvariant : Obligations.ResetMeetsTheInvariant :=
  ⟨⟨show Params.default.Legal by decide, (fun h => nomatch h), (fun _ h => nomatch h)⟩, rfl⟩

/-! #### One step (rules R7, R8, R53) -/

section Step

variable {s : State}

theorem step_idle (h : s.inbox = []) : step s = .next s := by simp [step, h]

theorem step_instr {p : Packet} {rest : List HostAction} {i : Instr} (h : s.inbox = .send p :: rest)
    (hd : decode p = .instr i) : step s = exec i s.takeAction := by simp [step, h, hd]

theorem takeAction_eq {action : HostAction} {rest : List HostAction} (h : s.inbox = action :: rest) :
    s.takeAction = { s with inbox := rest } := by simp [State.takeAction, h]

@[simp] theorem takeAction_deliver (s : State) (p : Packet) : (s.deliver p).takeAction = s := rfl

theorem decode_of_decodeTableWord {nbits w : Nat} {i : Instr} (h : decodeTableWord nbits w = some i) :
    decode (packetOfTableWord nbits w) = .instr i := by
  unfold decodeTableWord at h
  split at h
  · cases h; assumption
  · cases h

end Step

/-- Settles O6: the packet that decodes is taken off the pending actions, and the one `withFetchWord` delivers is the one
that is taken. -/
theorem stepRunsTheDecodedCommand : Obligations.StepRunsTheDecodedCommand := by
  constructor
  · intro s p rest i h hd
    rw [step_instr h hd, takeAction_eq h]
  · intro s nbits w i hd
    exact step_instr (State.deliver_inbox s _) (decode_of_decodeTableWord hd)

/-- Settles O7, by the first case of `step`. -/
theorem idleEngineHoldsItsState : Obligations.IdleEngineHoldsItsState := fun _ => step_idle

/-- Settles O30: the constants are read off their tables, and their parity is computed width by width. -/
theorem magicConstantsAreTheSpecs : Obligations.MagicConstantsAreTheSpecs := by
  refine ⟨rfl, rfl, rfl, fun _ => ⟨rfl, rfl, rfl⟩, rfl, fun w => ?_⟩
  cases w <;> decide

/-! #### The sequencer's ticks (rules R30, R125, R142, R158)

A command leaves everything but phase and scratch state alone until it answers, so the states it goes through are
`s.inPhase p x`. Each loop that counts up is one use of `ticks_loop`. -/

/-- The state `s` inside a command: the sequencer in phase `p` with scratch state `x`. -/
def State.inPhase (s : State) (p : Phase) (x : Scratch) : State := { s with phase := p, scratch := x }

section Ticks

variable {s t : State} {i : Instr} {g : KeyInputs}

theorem startCommand_eq_inPhase (s : State) : s.startCommand = s.inPhase .check s.scratch := rfl

theorem ticks_succ (h : s.tick i = .next t) (n : Nat) : State.ticks i (n + 1) s = State.ticks i n t := by
  simp [State.ticks, h]

theorem ticks_one (h : s.tick i = .next t) : State.ticks i 1 s = .next t := ticks_succ h 0

theorem ticks_add {m : Nat} (h : State.ticks i m s = .next t) (n : Nat) :
    State.ticks i (m + n) s = State.ticks i n t := by
  induction m generalizing s with
  | zero => cases h; rw [Nat.zero_add]
  | succ m ih =>
    cases hs : s.tick i with
    | next s' => rw [ticks_succ hs] at h; rw [Nat.add_right_comm, ticks_succ hs, ih h]
    | fault f => simp [State.ticks, hs] at h
    | refused r => simp [State.ticks, hs] at h

/-- A loop of `n` ticks through the states `f 0, .., f (n - 1)`, the last of which leaves it. -/
theorem ticks_loop {n : Nat} (f : Nat → State) (hn : 0 < n)
    (hmore : ∀ m, m + 1 < n → (f m).tick i = .next (f (m + 1)))
    (hexit : ∀ m, m + 1 = n → (f m).tick i = .next t) : State.ticks i n (f 0) = .next t := by
  have hrun : ∀ m, m < n → State.ticks i m (f 0) = .next (f m) := by
    intro m
    induction m with
    | zero => exact fun _ => rfl
    | succ m ih => exact fun h => by rw [ticks_add (ih (by omega)), ticks_one (hmore m h)]
  obtain ⟨m, rfl⟩ := Nat.exists_eq_add_one_of_ne_zero hn.ne'
  rw [ticks_add (hrun m (Nat.lt_succ_self m)), ticks_one (hexit m rfl)]

/-- Past `CHECK` a tick of an engine with a legal word size is `tickLoop`. -/
theorem tick_inPhase (hg : s.keyInputs? = some g) {p : Phase} (hidle : p ≠ .idle) (hcheck : p ≠ .check) (x : Scratch) :
    (s.inPhase p x).tick i = .next ((s.inPhase p x).tickLoop g i) := by
  have h : (s.inPhase p x).keyInputs? = some g := hg
  cases p with
  | idle => exact absurd rfl hidle
  | check => exact absurd rfl hcheck
  | _ => simp only [State.tick, State.inPhase] at h ⊢; rw [h]

end Ticks

/-! ##### The key schedule, one iteration a tick -/

section ScheduleTicks

variable {s : State} {i : Instr} {g : KeyInputs}

/-- `BuildL` after `n` words. -/
def Scratch.partL (g : KeyInputs) (n : Nat) (x : Scratch) : Scratch := { x with L := (List.range n).map (keyWord g) }

/-- `InitS` after `n` words. -/
def Scratch.partS (g : KeyInputs) (n : Nat) (x : Scratch) : Scratch := { x with S := (List.range n).map (initWord g) }

theorem pushL_partL (g : KeyInputs) (n : Nat) (x : Scratch) : (x.partL g n).pushL g = x.partL g (n + 1) := by
  simp [Scratch.pushL, Scratch.partL, List.range_succ]

theorem pushS_partS (g : KeyInputs) (n : Nat) (x : Scratch) : (x.partS g n).pushS g = x.partS g (n + 1) := by
  simp [Scratch.pushS, Scratch.partS, List.range_succ]

theorem iterate_mixStep_k (g : KeyInputs) (n : Nat) (x : Scratch) : ((Scratch.mixStep g)^[n] x).k = x.k + n := by
  induction n with
  | zero => rfl
  | succ n ih => rw [Function.iterate_succ_apply', Scratch.mixStep_k, ih, Nat.add_assoc]

/-- One tick of `KS_L`. -/
theorem tick_ksL (hg : s.keyInputs? = some g) (n : Nat) (x : Scratch) :
    (s.inPhase .ksL (x.partL g n)).tick i =
      .next (if n + 1 < g.c then s.inPhase .ksL (x.partL g (n + 1))
        else s.inPhase .ksS ((x.partL g (n + 1)).partS g 0)) := by
  rw [tick_inPhase hg (by decide) (by decide), ← pushL_partL]
  simp [State.tickLoop, State.inPhase, Scratch.partL, Scratch.partS]

/-- One tick of `KS_S`. -/
theorem tick_ksS (hg : s.keyInputs? = some g) (n : Nat) (x : Scratch) :
    (s.inPhase .ksS (x.partS g n)).tick i =
      .next (if n + 1 < g.t then s.inPhase .ksS (x.partS g (n + 1))
        else s.inPhase .ksMix (x.partS g (n + 1)).mixInit) := by
  rw [tick_inPhase hg (by decide) (by decide), ← pushS_partS]
  simp [State.tickLoop, State.inPhase, Scratch.partS]

/-- One tick of `KS_MIX`. -/
theorem tick_ksMix (hg : s.keyInputs? = some g) (x : Scratch) :
    (s.inPhase .ksMix x).tick i =
      .next (if x.k + 1 < g.nMix then s.inPhase .ksMix (x.mixStep g)
        else (s.inPhase .ksMix (x.mixStep g)).afterSchedule g i) := by
  rw [tick_inPhase hg (by decide) (by decide)]
  rfl

/-- `KS_L` is `BuildL` in `c` ticks. -/
theorem ticks_ksL (hg : s.keyInputs? = some g) (x : Scratch) :
    State.ticks i g.c (s.inPhase .ksL (x.partL g 0)) = .next (s.inPhase .ksS ((x.buildL g).partS g 0)) := by
  refine ticks_loop (fun n => s.inPhase .ksL (x.partL g n)) g.c_pos (fun n hn => ?_) (fun n hn => ?_)
  · rw [tick_ksL hg, if_pos hn]
  · rw [tick_ksL hg, hn, if_neg (lt_irrefl _)]; rfl

/-- `KS_S` is `InitS` in `t` ticks. -/
theorem ticks_ksS (hg : s.keyInputs? = some g) (x : Scratch) :
    State.ticks i g.t (s.inPhase .ksS (x.partS g 0)) = .next (s.inPhase .ksMix (x.initS g).mixInit) := by
  refine ticks_loop (fun n => s.inPhase .ksS (x.partS g n)) g.t_pos (fun n hn => ?_) (fun n hn => ?_)
  · rw [tick_ksS hg, if_pos hn]
  · rw [tick_ksS hg, hn, if_neg (lt_irrefl _)]; rfl

/-- `KS_MIX` is the mixing loop in `n_mix` ticks. -/
theorem ticks_ksMix (hg : s.keyInputs? = some g) {x : Scratch} (hx : x.k = 0) :
    State.ticks i g.nMix (s.inPhase .ksMix x) =
      .next ((s.inPhase .ksMix ((Scratch.mixStep g)^[g.nMix] x)).afterSchedule g i) := by
  have hk : ∀ n, ((Scratch.mixStep g)^[n] x).k = n := fun n => by rw [iterate_mixStep_k, hx, Nat.zero_add]
  refine ticks_loop (fun n => s.inPhase .ksMix ((Scratch.mixStep g)^[n] x)) g.nMix_pos (fun n hn => ?_) (fun n hn => ?_)
  · rw [tick_ksMix hg, hk, if_pos hn, Function.iterate_succ_apply']
  · rw [tick_ksMix hg, hk, hn, if_neg (lt_irrefl _), ← hn, Function.iterate_succ_apply']

/-- Where a use goes after the key schedule does not depend on the phase it comes from. -/
theorem afterSchedule_inPhase (hi : isUse i) (p q : Phase) (x : Scratch) :
    (s.inPhase p x).afterSchedule g i = (s.inPhase q x).afterSchedule g i := by
  cases i with
  | init wb rounds kbl key => cases hi
  | _ => rfl

theorem enterSchedule_cached {table : List Word} (hc : s.sCache = some table) (p : Phase) (x y : Scratch) :
    (s.inPhase p y).enterSchedule g i x = (s.inPhase p { x with S := table }).afterSchedule g i := by
  simp only [State.enterSchedule, State.inPhase, hc]

theorem enterSchedule_uncached (hc : s.sCache = none) (p : Phase) (x y : Scratch) :
    (s.inPhase p y).enterSchedule g i x = s.inPhase .ksL (x.partL g 0) := by
  simp only [State.enterSchedule, State.inPhase, hc]
  rfl

/-- The phases of the key schedule leave in scratch state what `State.schedule` computes, in the ticks of rule R200. -/
theorem ticks_enterSchedule (hi : isUse i) (hg : s.keyInputs? = some g) (x y : Scratch) :
    State.ticks i (s.scheduleTicks g) ((s.inPhase .check y).enterSchedule g i x) =
      .next ((s.inPhase .ksMix (s.schedule g x)).afterSchedule g i) := by
  cases hc : s.sCache with
  | some table =>
    simp only [State.scheduleTicks, State.schedule, hc]
    rw [enterSchedule_cached hc, afterSchedule_inPhase hi .check .ksMix]
    rfl
  | none =>
    simp only [State.scheduleTicks, State.schedule, hc]
    rw [enterSchedule_uncached hc, Nat.add_assoc, ticks_add (ticks_ksL hg x), ticks_add (ticks_ksS hg (x.buildL g)),
      ticks_ksMix hg rfl]
    rfl

end ScheduleTicks

/-! ##### The rounds and the response -/

section DatapathTicks

variable {s : State} {i : Instr} {g : KeyInputs}

/-- `x` with the round number set; rounds take theirs as an argument and do not read it. -/
def Scratch.atRound (n : Nat) (x : Scratch) : Scratch := { x with r := n }

theorem encRounds_S (w : Width) (n : Nat) (x : Scratch) : (Scratch.encRounds w n x).S = x.S := by
  induction n with
  | zero => rfl
  | succ n ih => exact ih

theorem decRounds_S (w : Width) (n : Nat) (x : Scratch) : (Scratch.decRounds w n x).S = x.S := by
  induction n generalizing x with
  | zero => rfl
  | succ n ih => exact ih _

/-- One tick of `ENC_RND`. -/
theorem tick_encRnd (hg : s.keyInputs? = some g) (n : Nat) (x : Scratch) :
    (s.inPhase .encRnd (x.atRound n)).tick i =
      .next (if n < g.rounds then s.inPhase .encRnd ((x.encRound g.w n).atRound (n + 1))
        else s.inPhase .out (x.encRound g.w n)) := by
  rw [tick_inPhase hg (by decide) (by decide)]
  rfl

/-- One tick of `DEC_RND`. -/
theorem tick_decRnd (hg : s.keyInputs? = some g) (n : Nat) (x : Scratch) :
    (s.inPhase .decRnd (x.atRound n)).tick i =
      .next (if 1 < n then s.inPhase .decRnd ((x.decRound g.w n).atRound (n - 1))
        else s.inPhase .decPost (x.decRound g.w n)) := by
  rw [tick_inPhase hg (by decide) (by decide)]
  rfl

/-- `ENC_RND` counts the rounds up from 1. -/
theorem ticks_encRnd (hg : s.keyInputs? = some g) (hr : 0 < g.rounds) (x : Scratch) :
    State.ticks i g.rounds (s.inPhase .encRnd (x.atRound 1)) =
      .next (s.inPhase .out (Scratch.encRounds g.w g.rounds x)) := by
  refine ticks_loop (fun n => s.inPhase .encRnd ((Scratch.encRounds g.w n x).atRound (n + 1))) hr
    (fun n hn => ?_) (fun n hn => ?_)
  · rw [tick_encRnd hg, if_pos hn]; rfl
  · rw [tick_encRnd hg, hn, if_neg (lt_irrefl _), ← hn]; rfl

/-- `DEC_RND` counts the rounds down to 1. -/
theorem ticks_decRnd (hg : s.keyInputs? = some g) (n : Nat) (x : Scratch) :
    State.ticks i (n + 1) (s.inPhase .decRnd (x.atRound (n + 1))) =
      .next (s.inPhase .decPost (Scratch.decRounds g.w (n + 1) x)) := by
  induction n generalizing x with
  | zero => exact ticks_one (tick_decRnd hg 1 x)
  | succ n ih =>
    have h := tick_decRnd (i := i) hg (n + 2) x
    rw [if_pos (by omega)] at h
    rw [ticks_succ h]
    exact ih _

/-- `ENC_PRE` and the rounds, in `1 + R` ticks. -/
theorem ticks_encPre (hg : s.keyInputs? = some g) (x : Scratch) :
    State.ticks i (1 + g.rounds) (s.inPhase .encPre x) =
      .next (s.inPhase .out (Scratch.encRounds g.w g.rounds (x.encPre g.w))) := by
  have hpre : (s.inPhase .encPre x).tick i = .next (if g.rounds = 0 then s.inPhase .out (x.encPre g.w)
      else s.inPhase .encRnd ((x.encPre g.w).atRound 1)) := by
    rw [tick_inPhase hg (by decide) (by decide)]
    rfl
  rw [ticks_add (ticks_one hpre)]
  split
  · next hr => rw [hr]; rfl
  · next hr => exact ticks_encRnd hg (Nat.pos_of_ne_zero hr) _

/-- The rounds of decryption, from the phase that follows the key schedule, and `DEC_POST`, in `R + 1` ticks. -/
theorem ticks_decrypt (hg : s.keyInputs? = some g) (p : Phase) (block : List Byte) (x : Scratch) :
    State.ticks i (g.rounds + 1) ((s.inPhase p x).afterSchedule g (.decrypt block)) =
      .next (s.inPhase .out ((Scratch.decRounds g.w g.rounds x).decPost g.w)) := by
  have hrounds : State.ticks i g.rounds ((s.inPhase p x).afterSchedule g (.decrypt block)) =
      .next (s.inPhase .decPost (Scratch.decRounds g.w g.rounds x)) := by
    cases hr : g.rounds with
    | zero => simp [State.afterSchedule, State.ticks, State.inPhase, Scratch.decRounds, hr]
    | succ n =>
      have h := ticks_decRnd (i := i) hg n x
      simp only [State.afterSchedule, hr]
      exact h
  rw [ticks_add hrounds]
  exact ticks_one (tick_inPhase hg (by decide) (by decide) _)

/-- `OUT` answers and makes the phase idle. -/
theorem ticks_out (hg : s.keyInputs? = some g) (x : Scratch) :
    State.ticks i 1 (s.inPhase .out x) = .next ((s.inPhase .out x).tickOut g i) :=
  ticks_one (tick_inPhase hg (by decide) (by decide) x)

end DatapathTicks

/-! ##### `CHECK`, and whole commands (rules R7, R200) -/

section Commands

variable {s : State} {g : KeyInputs}

theorem raise_startCommand (s : State) (error : Status) : s.startCommand.raise error = s.raise error := rfl

/-- `CHECK` of `INIT` is the whole command, and what it answers does not show the phase it began in. -/
theorem tick_init (wb : BitVec 8) (rounds kbl : BitVec 32) (key : List Byte) (s : State) :
    s.startCommand.tick (.init wb rounds kbl key) = exec (.init wb rounds kbl key) s := by
  change execInit wb rounds kbl key s.startCommand = execInit wb rounds kbl key s
  cases hl : s.life with
  | configured => rw [execInit_configured hl, execInit_configured (s := s.startCommand) hl, raise_startCommand]
  | unconfigured =>
    by_cases hc : s.configLegal wb rounds kbl key
    · rw [execInit_legal hl hc, execInit_legal (s := s.startCommand) hl hc]
      rfl
    · rw [execInit_illegal hl hc, execInit_illegal (s := s.startCommand) hl hc, raise_startCommand]

/-- One tick is all it takes where that tick is the whole command. -/
theorem ticks_one_eq_exec {i : Instr} (h : s.startCommand.tick i = exec i s) :
    State.ticks i 1 s.startCommand = exec i s := by
  unfold State.ticks
  rw [h]
  cases exec i s <;> rfl

@[simp] theorem startCommand_keyPasses (s : State) : s.startCommand.keyPasses = s.keyPasses := rfl
@[simp] theorem startCommand_blockPasses (s : State) (block : List Byte) :
    s.startCommand.blockPasses block = s.blockPasses block := rfl
@[simp] theorem startCommand_keyInputs? (s : State) : s.startCommand.keyInputs? = s.keyInputs? := rfl

/-- The test of a command's own operand: the block's length (rule R167), and none for the others. -/
def State.operandPasses (s : State) : Instr → Bool
  | .init _ _ _ _ => true
  | .ksched => true
  | .encrypt block => s.blockPasses block
  | .decrypt block => s.blockPasses block

/-- Scratch state when the tests have passed: the block commands have loaded their block (rules R136, R151). -/
def State.loaded (s : State) (g : KeyInputs) : Instr → Scratch
  | .init _ _ _ _ => s.scratch
  | .ksched => s.scratch
  | .encrypt block => s.scratch.decodeBlock g.w block
  | .decrypt block => s.scratch.decodeBlock g.w block

/-- A key test of rule R171 fails exactly when `CheckKey` does. -/
theorem keyTest_fails_iff (s : State) :
    (s.klen ≠ s.keyBytesLen ∨ s.klen.toNat % s.wordBytes.toNat ≠ 0) ↔ ¬s.keyPasses := by
  rw [keyPasses_iff, not_and_or]

/-- The block test of rule R171 fails exactly when the machine's does. -/
theorem blockTest_fails_iff (s : State) (block : List Byte) :
    block.length ≠ 2 * s.wordBytes.toNat ↔ ¬s.blockPasses block := by rw [blockPasses_iff]

/-- The conditions of rule R171 in the terms of the machine's own tests. -/
theorem status_use_eq_ok_iff {i : Instr} (hi : isUse i) :
    Ref.status s (.instr i) = .ok ↔ s.life = .configured ∧ s.keyPasses ∧ s.operandPasses i := by
  cases hl : s.life with
  | unconfigured =>
    cases i with
    | init wb rounds kbl key => cases hi
    | _ => simp [Ref.status, hl]
  | configured =>
    by_cases hk : s.keyPasses <;> cases i with
    | init wb rounds kbl key => cases hi
    | ksched => simp [Ref.status, State.operandPasses, keyTest_fails_iff, hl, hk]
    | _ block => simp [Ref.status, State.operandPasses, keyTest_fails_iff, blockTest_fails_iff, hl, hk]

/-- A block command with a bad block (rule R167). -/
theorem exec_badOperand {i : Instr} (hl : s.life = .configured) (hk : s.keyPasses) (hb : ¬s.operandPasses i) :
    exec i s = .next (s.raise .invalidBlockLength) := by
  cases i with
  | init wb rounds kbl key => exact absurd rfl hb
  | ksched => exact absurd rfl hb
  | encrypt block => exact execEncrypt_badBlock hl hk hb
  | decrypt block => exact execDecrypt_badBlock hl hk hb

/- `CHECK` by the tests that pass. -/

theorem tick_unconfigured {i : Instr} (hi : isUse i) (hl : s.life = .unconfigured) :
    s.startCommand.tick i = .next (s.raise .invalidState) := by
  cases i with
  | init wb rounds kbl key => cases hi
  | _ => simp [State.tick, State.tickCheck, hl, raise_startCommand]

theorem tick_badKey {i : Instr} (hi : isUse i) (hl : s.life = .configured) (hk : ¬s.keyPasses) :
    s.startCommand.tick i = .next (s.raise .invalidKeyLength) := by
  cases i with
  | init wb rounds kbl key => cases hi
  | _ => simp [State.tick, State.tickCheck, hl, hk, raise_startCommand]

theorem tick_badOperand {i : Instr} (hl : s.life = .configured) (hk : s.keyPasses) (hb : ¬s.operandPasses i) :
    s.startCommand.tick i = .next (s.raise .invalidBlockLength) := by
  cases i with
  | init wb rounds kbl key => exact absurd rfl hb
  | ksched => exact absurd rfl hb
  | _ block =>
    have hblock : ¬s.blockPasses block := hb
    simp [State.tick, State.tickCheck, hl, hk, hblock, raise_startCommand]

theorem tick_passes {i : Instr} (hi : isUse i) (hl : s.life = .configured) (hk : s.keyPasses) (hb : s.operandPasses i)
    (hg : s.keyInputs? = some g) :
    s.startCommand.tick i = .next (s.startCommand.enterSchedule g i (s.loaded g i)) := by
  cases i with
  | init wb rounds kbl key => cases hi
  | ksched => simp [State.tick, State.tickCheck, State.loaded, hl, hk, hg]
  | _ block =>
    have hblock : s.blockPasses block := hb
    simp [State.tick, State.tickCheck, State.loaded, hl, hk, hblock, hg]

/-- An error takes one tick and is the atomic command's. -/
theorem ticks_use_of_error {i : Instr} (hi : isUse i) (h : Ref.status s (.instr i) ≠ .ok) :
    State.ticks i 1 s.startCommand = exec i s := by
  apply ticks_one_eq_exec
  rw [Ne, status_use_eq_ok_iff hi] at h
  cases hl : s.life with
  | unconfigured => rw [tick_unconfigured hi hl, exec_unconfigured hi hl]
  | configured =>
    by_cases hk : s.keyPasses
    · have hb : ¬s.operandPasses i := fun hb => h ⟨hl, hk, hb⟩
      rw [tick_badOperand hl hk hb, exec_badOperand hl hk hb]
    · rw [tick_badKey hi hl hk, exec_badKey hi hl hk]

/-- The ticks of a command between the key schedule and `OUT` (rule R200). -/
def KeyInputs.datapathTicks (g : KeyInputs) : Instr → Nat
  | .init _ _ _ _ => 0
  | .ksched => 0
  | .encrypt _ => 1 + g.rounds
  | .decrypt _ => g.rounds + 1

/-- What a command does to scratch state between the key schedule and `OUT` (rules R135, R150). -/
def Scratch.datapath (g : KeyInputs) (x : Scratch) : Instr → Scratch
  | .init _ _ _ _ => x
  | .ksched => x
  | .encrypt _ => Scratch.encRounds g.w g.rounds (x.encPre g.w)
  | .decrypt _ => (Scratch.decRounds g.w g.rounds x).decPost g.w

theorem datapath_S (g : KeyInputs) (x : Scratch) (i : Instr) : (x.datapath g i).S = x.S := by
  cases i with
  | init wb rounds kbl key => rfl
  | ksched => rfl
  | encrypt block => exact encRounds_S ..
  | decrypt block => exact decRounds_S ..

theorem workTicks_use {i : Instr} (hi : isUse i) :
    s.workTicks g i = 1 + (s.scheduleTicks g + (g.datapathTicks i + 1)) := by
  cases i with
  | init wb rounds kbl key => cases hi
  | _ => simp only [State.workTicks, KeyInputs.datapathTicks]; omega

/-- The phases between the key schedule and `OUT` are the command's datapath. -/
theorem ticks_datapath {i : Instr} (hi : isUse i) (hg : s.keyInputs? = some g) (p : Phase) (x : Scratch) :
    State.ticks i (g.datapathTicks i) ((s.inPhase p x).afterSchedule g i) = .next (s.inPhase .out (x.datapath g i)) := by
  cases i with
  | init wb rounds kbl key => cases hi
  | ksched => rfl
  | encrypt block => exact ticks_encPre hg x
  | decrypt block => exact ticks_decrypt hg p block x

/-- `OUT` after the datapath gives the atomic command's answer. -/
theorem tickOut_datapath {i : Instr} (hi : isUse i) (hl : s.life = .configured) (hk : s.keyPasses)
    (hb : s.operandPasses i) (hg : s.keyInputs? = some g) :
    .next ((s.inPhase .out ((s.schedule g (s.loaded g i)).datapath g i)).tickOut g i) = exec i s := by
  cases i with
  | init wb rounds kbl key => cases hi
  | ksched => exact (execKsched_ok hl hk hg).symm
  | encrypt block =>
    refine Eq.trans ?_ (execEncrypt_ok hl hk hb hg).symm
    rw [State.tickOut, State.inPhase, datapath_S]
    rfl
  | decrypt block =>
    refine Eq.trans ?_ (execDecrypt_ok hl hk hb hg).symm
    rw [State.tickOut, State.inPhase, datapath_S]
    rfl

/-- A use whose tests pass: `CHECK`, the key schedule, the datapath and `OUT`, one after the other. -/
theorem ticks_use_of_ok {i : Instr} (hi : isUse i) (h : Ref.status s (.instr i) = .ok) (hg : s.keyInputs? = some g) :
    State.ticks i (s.workTicks g i) s.startCommand = exec i s := by
  obtain ⟨hl, hk, hb⟩ := (status_use_eq_ok_iff hi).mp h
  rw [workTicks_use hi, ticks_add (ticks_one (tick_passes hi hl hk hb hg)), startCommand_eq_inPhase,
    ticks_add (ticks_enterSchedule hi hg _ _), ticks_add (ticks_datapath hi hg _ _), ticks_out hg,
    tickOut_datapath hi hl hk hb hg]

end Commands

/-- Settles O45: `INIT` is its `CHECK`; a use ends there with the first error, or goes through its phases to the answer. -/
theorem sequencerRefinesTheAtomicCommand : Obligations.SequencerRefinesTheAtomicCommand := by
  intro s i
  cases i with
  | init wb rounds kbl key =>
    have h := ticks_one_eq_exec (tick_init wb rounds kbl key s)
    exact ⟨fun _ => h, fun _ => h, fun _ _ _ => h⟩
  | _ => exact ⟨ticks_use_of_error rfl, (fun hi => nomatch hi), fun _ => ticks_use_of_ok rfl⟩

end Sys2Proof.Machine

/-! ### State: uses and their frame, unobserved state, and the sequencer's indices -/

namespace Sys2Proof.Machine

/-! #### The frame of a command and of a step (rules R26, R33, R34) -/

section Frame

variable {s t : State}

theorem SameConfig.refl (s : State) : SameConfig s s := ⟨rfl, rfl, rfl, rfl, rfl, rfl, rfl⟩

theorem SameConfig.trans {u : State} (h : SameConfig s t) (h' : SameConfig t u) : SameConfig s u :=
  ⟨h'.life.trans h.life, h'.wordBytes.trans h.wordBytes, h'.rounds.trans h.rounds, h'.keyBytesLen.trans h.keyBytesLen,
    h'.key.trans h.key, h'.klen.trans h.klen, h'.params.trans h.params⟩

/-- What does not touch the configuration or the cache leaves a good persistent state. -/
theorem SameConfig.persistentOk (h : SameConfig s t) (hc : t.sCache = s.sCache) (hs : s.PersistentOk) :
    t.PersistentOk :=
  ⟨h.params ▸ hs.params, fun hl => h.configOk (hs.config (h.life ▸ hl)), h.cacheOk hc hs.cache⟩

theorem raise_answered (s : State) (error : Status) : AnsweredWith s (s.raise error) (responsePacket error []) :=
  respond_answered s error []

/-- Without a cache a use has nowhere to keep its table (rule R34). -/
theorem cacheAfterUse_never (h : s.params.cache = .never) (table : List Word) : s.cacheAfterUse table = s.sCache := by
  simp [State.cacheAfterUse, h]

/-- The frame of a use (rules R26, R34). -/
theorem exec_use_frame {i : Instr} (hi : isUse i) (h : exec i s = .next t) :
    (∃ response, AnsweredWith s t response) ∧ (s.params.cache = .never → t.sCache = s.sCache) := by
  rcases exec_use_cases i hi s with ⟨error, -, he⟩ | ⟨-, -, he⟩ | ⟨-, -, g, x, payload, -, he⟩ <;>
    rw [he] at h <;> cases h
  · exact ⟨⟨_, raise_answered s error⟩, fun _ => rfl⟩
  · exact ⟨⟨_, keepTable_respond_answered s _ .ok payload⟩, fun hc => cacheAfterUse_never hc _⟩

/-- In a lifetime no command writes the configuration or the key, `INIT` least of all (rules R26, R85). -/
theorem exec_sameConfig {i : Instr} (hl : s.life = .configured) (h : exec i s = .next t) : SameConfig s t := by
  cases i with
  | init wb rounds kbl key =>
    rw [exec, execInit_configured hl] at h
    cases h
    exact (raise_answered s _).config
  | _ =>
    obtain ⟨⟨response, ht⟩, -⟩ := exec_use_frame rfl h
    exact ht.config

/-- `KSCHED`, `ENCRYPT` and `DECRYPT` fault only where the word size has no meaning; `INIT` does not fault (log 13). -/
theorem exec_fault {i : Instr} {f : Fault} (h : exec i s = .fault f) : s.life = .configured ∧ s.keyInputs? = none := by
  have huse (hi : isUse i) : s.life = .configured ∧ s.keyInputs? = none := by
    rcases exec_use_cases i hi s with ⟨error, -, he⟩ | ⟨hl, hg, -⟩ | ⟨-, -, g, x, payload, -, he⟩
    · rw [he] at h; cases h
    · exact ⟨hl, hg⟩
    · rw [he] at h; cases h
  cases i with
  | init wb rounds kbl key =>
    rcases exec_init_cases wb rounds kbl key s with ⟨error, -, he⟩ | ⟨-, -, he⟩ <;> rw [he] at h <;> cases h
  | _ => exact huse rfl

/-- No command is refused. -/
theorem exec_ne_refused (i : Instr) (s : State) (r : Refusal) : exec i s ≠ .refused r := by
  have huse (hi : isUse i) : exec i s ≠ .refused r := by
    rcases exec_use_cases i hi s with ⟨error, -, he⟩ | ⟨-, -, he⟩ | ⟨-, -, g, x, payload, -, he⟩ <;> simp [he]
  cases i with
  | init wb rounds kbl key =>
    rcases exec_init_cases wb rounds kbl key s with ⟨error, -, he⟩ | ⟨-, -, he⟩ <;> simp [he]
  | _ => exact huse rfl

/-- A state has no inputs exactly when its word size is none of 2, 4 and 8 (rule R22). -/
theorem keyInputs?_eq_none_iff : s.keyInputs? = none ↔ s.wordBytes ≠ 2 ∧ s.wordBytes ≠ 4 ∧ s.wordBytes ≠ 8 := by
  rw [State.keyInputs?, Option.map_eq_none_iff, ← Option.not_isSome_iff_eq_none, Width.ofBytes?_isSome, not_or, not_or]

end Frame

/-- Settles O16, by the outcomes of a use. -/
theorem usesWriteNoPersistentState : Obligations.UsesWriteNoPersistentState := fun _ _ _ => exec_use_frame

/-- Settles O22: the table is `keyTable` of the inputs, whatever scratch state held. -/
theorem scheduleDependsOnlyOnItsInputs : Obligations.ScheduleDependsOnlyOnItsInputs := by
  intro g x y
  rw [keySchedule_S g x, keySchedule_S g y]
  exact ⟨rfl, keyTable_length g, isWord_keyTable g, keySchedule_a g x, keySchedule_b g x⟩

/-- Settles O35: of the cases of a step only a command can fault, and none is refused. -/
theorem onlyAnIllegalWordSizeFaults : Obligations.OnlyAnIllegalWordSizeFaults := by
  intro s
  rcases step_cases s with ⟨-, h⟩ | ⟨rest, -, h⟩ | ⟨packet, rest, why, -, -, h⟩ | ⟨packet, rest, i, -, -, h⟩ <;> rw [h]
  case inr.inr.inr =>
    refine ⟨fun f hf => ?_, exec_ne_refused i _⟩
    obtain ⟨hl, hg⟩ := exec_fault hf
    exact ⟨hl, keyInputs?_eq_none_iff.mp hg⟩
  all_goals exact ⟨fun _ => nofun, fun _ => nofun⟩

/-- Settles O39, by the cases of a step that are not a reset. -/
theorem configuredEngineIsImmutable : Obligations.ConfiguredEngineIsImmutable := by
  intro s t hl hreset ht
  have htaken := sameConfig_takeAction s
  rcases step_cases s with ⟨-, h⟩ | ⟨rest, hin, -⟩ | ⟨packet, rest, why, -, -, h⟩ | ⟨packet, rest, i, -, -, h⟩
  · rw [h] at ht; cases ht; exact .refl s
  · simp [hin] at hreset
  · rw [h] at ht; cases ht; exact htaken.trans (raise_answered s.takeAction _).config
  · rw [h] at ht; exact htaken.trans (exec_sameConfig hl ht)

/-- Settles O47: the limits bound `R` and `klen` (rule R14), and a word has between two and eight bytes. -/
theorem countersFitTheirWidths : Obligations.CountersFitTheirWidths := by
  intro s g hs hl hg
  obtain ⟨-, hrounds, hklen, -, -⟩ := keyInputs?_eq hg
  obtain ⟨hrMax, hbMax⟩ := hs.params
  have hr : g.rounds ≤ 2 ^ 28 - 2 := hrounds.trans_le ((hs.config hl).rounds.trans hrMax)
  have hk : g.klen ≤ 2 ^ 32 - 1 := hklen.trans_le ((hs.config hl).klen.trans hbMax)
  have ht : g.t ≤ 2 ^ 29 - 2 := by rw [KeyInputs.t]; omega
  have hc : g.c < 2 ^ 31 := by
    have hu : 2 ≤ g.w.bytes := by cases g.w <;> decide
    have hdiv : g.klen / g.w.bytes ≤ g.klen / 2 := Nat.div_le_div_left hu (by decide)
    rw [KeyInputs.c]; omega
  have hpayload : g.t * g.w.bytes ≤ (2 ^ 29 - 2) * 8 := Nat.mul_le_mul ht g.w.bytes_le
  refine ⟨ht, hc, ?_, ?_, ?_⟩
  · rw [KeyInputs.nMix]; omega
  · omega
  · omega

/-! #### The answer of a command as a function of its inputs (rules R26, R33, R34)

`State.response` reads neither scratch state nor the cache, and `exec_answers` says that it is the answer of every
command of a good state. What may differ between two states unobserved is then what `SameInputs` leaves open. -/

section Response

variable {s t : State} {g : KeyInputs}

/-- Scratch states with the same block words and the same `S`: all that the rounds read. -/
structure SameBlock (x y : Scratch) : Prop where
  a : x.a = y.a
  b : x.b = y.b
  S : x.S = y.S

theorem SameBlock.encPre {x y : Scratch} (h : SameBlock x y) (w : Width) : SameBlock (x.encPre w) (y.encPre w) :=
  ⟨by simp [h.a, h.S], by simp [h.b, h.S], h.S⟩

theorem SameBlock.decPost {x y : Scratch} (h : SameBlock x y) (w : Width) : SameBlock (x.decPost w) (y.decPost w) :=
  ⟨by simp [h.a, h.S], by simp [h.b, h.S], h.S⟩

theorem SameBlock.encRounds {x y : Scratch} (h : SameBlock x y) (w : Width) (n : Nat) :
    SameBlock (Scratch.encRounds w n x) (Scratch.encRounds w n y) := by
  induction n with
  | zero => exact h
  | succ n ih =>
    obtain ⟨ha, hb, hS⟩ := ih
    exact ⟨by simp [Scratch.encRounds, ha, hb, hS], by simp [Scratch.encRounds, ha, hb, hS], hS⟩

theorem SameBlock.decRounds {x y : Scratch} (h : SameBlock x y) (w : Width) (n : Nat) :
    SameBlock (Scratch.decRounds w n x) (Scratch.decRounds w n y) := by
  induction n generalizing x y with
  | zero => exact h
  | succ n ih => exact ih ⟨by simp [h.a, h.b, h.S], by simp [h.a, h.b, h.S], h.S⟩

theorem SameBlock.encodeBlock {x y : Scratch} (h : SameBlock x y) (w : Width) :
    (x.encodeBlock w).blk = (y.encodeBlock w).blk := by simp [h.a, h.b]

theorem SameBlock.encryptLoaded {x y : Scratch} (h : SameBlock x y) (g : KeyInputs) :
    (x.encryptLoaded g).blk = (y.encryptLoaded g).blk :=
  ((h.encPre g.w).encRounds g.w g.rounds).encodeBlock g.w

theorem SameBlock.decryptLoaded {x y : Scratch} (h : SameBlock x y) (g : KeyInputs) :
    (x.decryptLoaded g).blk = (y.decryptLoaded g).blk :=
  ((h.decRounds g.w g.rounds).decPost g.w).encodeBlock g.w

/-- A good cache or none, and any scratch state: the registers of the block and `S` are those the reference engine has
(rules R33, R34). -/
theorem sameBlock_schedule (hs : s.CacheOk) (hg : s.keyInputs? = some g) (block : List Byte) :
    SameBlock (s.schedule g (s.scratch.decodeBlock g.w block))
      ((Scratch.reset.decodeBlock g.w block).keySchedule g) := by
  obtain ⟨ha, hb⟩ := schedule_ab s g (s.scratch.decodeBlock g.w block)
  constructor
  · rw [keySchedule_a]; exact ha
  · rw [keySchedule_b]; exact hb
  · rw [keySchedule_S, schedule_S hs hg]

/-- The payload of a use whose tests pass, recomputed from the inputs alone (rules R123, R135, R150). -/
def KeyInputs.payload (g : KeyInputs) : Instr → List Byte
  | .init _ _ _ _ => []
  | .ksched => encodeTable g.w (keyTable g)
  | .encrypt block => (((Scratch.reset.decodeBlock g.w block).keySchedule g).encryptLoaded g).blk
  | .decrypt block => (((Scratch.reset.decodeBlock g.w block).keySchedule g).decryptLoaded g).blk

/-- A use whose tests pass answers with that payload. -/
theorem exec_use_ok {i : Instr} (hi : isUse i) (hs : s.CacheOk) (hl : s.life = .configured) (hk : s.keyPasses)
    (hb : s.operandPasses i) (hg : s.keyInputs? = some g) :
    exec i s = .next ((s.keepTable (keyTable g)).respond .ok (g.payload i)) := by
  cases i with
  | init wb rounds kbl key => cases hi
  | ksched => rw [exec, execKsched_ok hl hk hg, schedule_S hs hg]; rfl
  | encrypt block =>
    rw [exec, execEncrypt_ok hl hk hb hg, schedule_S hs hg, (sameBlock_schedule hs hg block).encryptLoaded]; rfl
  | decrypt block =>
    rw [exec, execDecrypt_ok hl hk hb hg, schedule_S hs hg, (sameBlock_schedule hs hg block).decryptLoaded]; rfl

/-- The payload of a command of this state whose tests pass. -/
def State.payload (s : State) (c : Cmd) : List Byte :=
  match c, s.keyInputs? with
  | .instr i, some g => g.payload i
  | _, _ => []

/-- The response of this state to a command: the status of rule R171, with a payload on success. -/
def State.response (s : State) (c : Cmd) : Packet :=
  responsePacket (Ref.status s c) (if Ref.status s c = .ok then s.payload c else [])

theorem payload_init (s : State) (wb : BitVec 8) (rounds kbl : BitVec 32) (key : List Byte) :
    s.payload (.instr (.init wb rounds kbl key)) = [] := by
  cases h : s.keyInputs? <;> simp [State.payload, KeyInputs.payload, h]

theorem payload_instr (hg : s.keyInputs? = some g) (i : Instr) : s.payload (.instr i) = g.payload i := by
  simp [State.payload, hg]

theorem response_of_ok {c : Cmd} (h : Ref.status s c = .ok) : s.response c = responsePacket .ok (s.payload c) := by
  simp [State.response, h]

theorem response_of_error {c : Cmd} {error : Status} (h : Ref.status s c = error) (he : error ≠ .ok) :
    s.response c = responsePacket error [] := by
  simp [State.response, h, he]

/-- The tests of `INIT` in the terms of the machine's own (rule R86). -/
theorem status_init (s : State) (wb : BitVec 8) (rounds kbl : BitVec 32) (key : List Byte) :
    Ref.status s (.instr (.init wb rounds kbl key)) =
      if s.life = .configured then .invalidState
      else if s.configLegal wb rounds kbl key then .ok else .invalidConfig := by
  have hw : (wb.toNat = 2 ∨ wb.toNat = 4 ∨ wb.toNat = 8) ↔ wb = 2 ∨ wb = 4 ∨ wb = 8 := by
    simp [← BitVec.toNat_inj]
  have hfails : (¬(wb.toNat = 2 ∨ wb.toNat = 4 ∨ wb.toNat = 8) ∨ s.params.rMax < rounds.toNat ∨
      s.params.bMax < kbl.toNat ∨ s.params.bMax < key.length) ↔ ¬s.configLegal wb rounds kbl key := by
    simp only [configLegal_iff, hw, not_and_or, Nat.not_le]
  simp only [Ref.status, hfails, ite_not]

/-- The tests of a use in the terms of the machine's own (rule R171). -/
theorem status_use {i : Instr} (hi : isUse i) (s : State) :
    Ref.status s (.instr i) =
      if s.life = .unconfigured then .invalidState
      else if s.keyPasses then if s.operandPasses i then .ok else .invalidBlockLength
      else .invalidKeyLength := by
  cases i with
  | init wb rounds kbl key => cases hi
  | ksched => simp only [Ref.status, keyTest_fails_iff, ite_not, State.operandPasses, if_true]
  | _ block =>
    simp only [Ref.status, keyTest_fails_iff, blockTest_fails_iff, ite_not, State.operandPasses]
    rfl

/-- The state with the configuration and key it has after a command: those of an `INIT` that succeeds (rule R85), and
its own otherwise. -/
def State.constructed (s : State) (c : Cmd) : State :=
  match c with
  | .instr (.init wb rounds kbl key) =>
    if Ref.status s (.instr (.init wb rounds kbl key)) = .ok then s.construct wb rounds kbl key else s
  | _ => s

theorem constructed_use {i : Instr} (hi : isUse i) (s : State) : s.constructed (.instr i) = s := by
  cases i with
  | init wb rounds kbl key => cases hi
  | _ => rfl

theorem constructed_error {c : Cmd} (h : Ref.status s c ≠ .ok) : s.constructed c = s := by
  unfold State.constructed
  split
  · exact if_neg h
  · rfl

/-- In a lifetime no command constructs: `INIT` fails and the others never do (rule R26). -/
theorem constructed_configured (hl : s.life = .configured) (c : Cmd) : s.constructed c = s := by
  unfold State.constructed
  split
  · exact if_neg (by simp [status_init, hl])
  · rfl

theorem constructed_cases (s : State) (c : Cmd) :
    s.constructed c = s ∨ ∃ wb rounds kbl key, s.constructed c = s.construct wb rounds kbl key := by
  unfold State.constructed
  split
  · split
    · exact .inr ⟨_, _, _, _, rfl⟩
    · exact .inl rfl
  · exact .inl rfl

theorem constructed_inbox (s : State) (c : Cmd) : (s.constructed c).inbox = s.inbox := by
  rcases constructed_cases s c with h | ⟨wb, rounds, kbl, key, h⟩
  · rw [h]
  · rw [h]; rfl

theorem constructed_outbox (s : State) (c : Cmd) : (s.constructed c).outbox = s.outbox := by
  rcases constructed_cases s c with h | ⟨wb, rounds, kbl, key, h⟩
  · rw [h]
  · rw [h]; rfl

/-- What a state answers to a command, in full: the one response is `State.response`. -/
def State.Answers (s : State) (c : Cmd) (outcome : Host.Outcome State Fault Refusal) : Prop :=
  ∃ t, outcome = .next t ∧ AnsweredWith (s.constructed c) t (s.response c)

/-- An error answers its status and constructs nothing (rule R172). -/
theorem answers_raise {c : Cmd} {error : Status} (h : Ref.status s c = error) (he : error ≠ .ok) :
    s.Answers c (.next (s.raise error)) := by
  refine ⟨_, rfl, ?_⟩
  rw [response_of_error h he, constructed_error (h ▸ he)]
  exact raise_answered s error

theorem exec_init_answers (s : State) (wb : BitVec 8) (rounds kbl : BitVec 32) (key : List Byte) :
    s.Answers (.instr (.init wb rounds kbl key)) (exec (.init wb rounds kbl key) s) := by
  have hstatus := status_init s wb rounds kbl key
  cases hl : s.life with
  | configured =>
    rw [exec, execInit_configured hl]
    exact answers_raise (hstatus.trans (if_pos hl)) (by decide)
  | unconfigured =>
    rw [if_neg (by rw [hl]; decide)] at hstatus
    by_cases hc : s.configLegal wb rounds kbl key
    · rw [if_pos hc] at hstatus
      refine ⟨_, execInit_legal hl hc, ?_⟩
      rw [response_of_ok hstatus, payload_init, State.constructed, if_pos hstatus]
      exact ⟨⟨rfl, rfl, rfl, rfl, rfl, rfl, rfl⟩, rfl, rfl, rfl⟩
    · rw [exec, execInit_illegal hl hc]
      exact answers_raise (hstatus.trans (if_neg hc)) (by decide)

theorem exec_use_answers {i : Instr} (hi : isUse i) (hs : s.PersistentOk) : s.Answers (.instr i) (exec i s) := by
  have hstatus := status_use hi s
  cases hl : s.life with
  | unconfigured =>
    rw [exec_unconfigured hi hl]
    exact answers_raise (hstatus.trans (if_pos hl)) (by decide)
  | configured =>
    rw [if_neg (by rw [hl]; decide)] at hstatus
    by_cases hk : s.keyPasses
    · rw [if_pos hk] at hstatus
      by_cases hb : s.operandPasses i
      · obtain ⟨g, hg⟩ := keyInputs?_of_isSome (hs.config hl).width
        refine ⟨_, exec_use_ok hi hs.cache hl hk hb hg, ?_⟩
        rw [response_of_ok (hstatus.trans (if_pos hb)), payload_instr hg, constructed_use hi]
        exact keepTable_respond_answered s _ .ok _
      · rw [exec_badOperand hl hk hb]
        exact answers_raise (hstatus.trans (if_neg hb)) (by decide)
    · rw [exec_badKey hi hl hk]
      exact answers_raise (hstatus.trans (if_neg hk)) (by decide)

/-- Every command of a good state is answered with the response its inputs give, and writes no configuration but that of
an `INIT` that succeeds. -/
theorem exec_answers (hs : s.PersistentOk) (i : Instr) : s.Answers (.instr i) (exec i s) := by
  cases i with
  | init wb rounds kbl key => exact exec_init_answers s wb rounds kbl key
  | _ => exact exec_use_answers rfl hs

/-- The same of every packet. -/
theorem step_answers (hs : s.PersistentOk) {p : Packet} {rest : List HostAction} (h : s.inbox = .send p :: rest) :
    s.takeAction.Answers (decode p) (step s) := by
  cases hd : decode p with
  | illegal why =>
    have hstep : step s = .next (s.takeAction.raise .illegalCommand) := by simp [step, h, hd]
    exact hstep ▸ answers_raise rfl (by decide)
  | instr i => exact step_instr h hd ▸ exec_answers (persistentOk_takeAction hs) i

end Response

/-! #### What a response can depend on -/

section SameInputs

variable {s t s' t' : State}

/-- Two states with the same limits, constant and lifecycle and, once configured, the same configuration and key. -/
structure SameInputs (s t : State) : Prop where
  rMax : s.params.rMax = t.params.rMax
  bMax : s.params.bMax = t.params.bMax
  q64 : s.params.q64 = t.params.q64
  life : s.life = t.life
  config : s.life = .configured →
    s.wordBytes = t.wordBytes ∧ s.rounds = t.rounds ∧ s.keyBytesLen = t.keyBytesLen ∧ s.key = t.key ∧ s.klen = t.klen

theorem SameConfig.sameInputs (h : SameConfig s t) : SameInputs s t :=
  ⟨by rw [h.params], by rw [h.params], by rw [h.params], h.life.symm,
    fun _ => ⟨h.wordBytes.symm, h.rounds.symm, h.keyBytesLen.symm, h.key.symm, h.klen.symm⟩⟩

/-- Indistinguishable states are those with the same inputs, pending actions and responses. -/
theorem indistinguishable_iff : Indistinguishable s t ↔ SameInputs s t ∧ s.inbox = t.inbox ∧ s.outbox = t.outbox :=
  ⟨fun ⟨rMax, bMax, q64, life, inbox, outbox, config⟩ => ⟨⟨rMax, bMax, q64, life, config⟩, inbox, outbox⟩,
    fun ⟨⟨rMax, bMax, q64, life, config⟩, inbox, outbox⟩ => ⟨rMax, bMax, q64, life, inbox, outbox, config⟩⟩

/-- No test reads a register that `SameInputs` leaves open (rule R171). -/
theorem SameInputs.status (h : SameInputs s t) (c : Cmd) : Ref.status s c = Ref.status t c := by
  cases c with
  | illegal why => rfl
  | instr i =>
    cases hl : s.life with
    | unconfigured =>
      have hl' := h.life ▸ hl
      cases i <;> simp [Ref.status, hl, hl', h.rMax, h.bMax]
    | configured =>
      have hl' := h.life ▸ hl
      obtain ⟨hw, -, hb, -, hk⟩ := h.config hl
      cases i <;> simp [Ref.status, hl, hl', hw, hb, hk]

theorem SameInputs.keyInputs? (h : SameInputs s t) (hl : s.life = .configured) : s.keyInputs? = t.keyInputs? := by
  obtain ⟨hw, hr, -, hkey, hklen⟩ := h.config hl
  exact keyInputs?_congr hw hr hkey hklen h.q64

/-- Where a test passes, its payload is the same: a use succeeds only in a configured engine, and `INIT` has none. -/
theorem SameInputs.payload (h : SameInputs s t) {c : Cmd} (hok : Ref.status s c = .ok) : s.payload c = t.payload c := by
  have huse {i : Instr} (hi : isUse i) (hok : Ref.status s (.instr i) = .ok) :
      s.payload (.instr i) = t.payload (.instr i) := by
    obtain ⟨hl, -⟩ := (status_use_eq_ok_iff hi).mp hok
    simp only [State.payload, h.keyInputs? hl]
  cases c with
  | illegal why => rfl
  | instr i =>
    cases i with
    | init wb rounds kbl key => rw [payload_init, payload_init]
    | _ => exact huse rfl hok

theorem SameInputs.response (h : SameInputs s t) (c : Cmd) : s.response c = t.response c := by
  by_cases hok : Ref.status s c = .ok
  · rw [response_of_ok hok, response_of_ok (h.status c ▸ hok), h.payload hok]
  · rw [response_of_error rfl hok, response_of_error (h.status c).symm hok]

theorem SameInputs.constructed (h : SameInputs s t) (c : Cmd) : SameInputs (s.constructed c) (t.constructed c) := by
  cases c with
  | illegal why => exact h
  | instr i =>
    cases i with
    | init wb rounds kbl key =>
      rw [State.constructed, State.constructed, ← h.status]
      split
      · exact ⟨h.rMax, h.bMax, h.q64, rfl, fun _ => ⟨rfl, rfl, rfl, rfl, rfl⟩⟩
      · exact h
    | _ => exact h

theorem SameInputs.answered {response : Packet} (h : SameInputs s t) (hs : AnsweredWith s s' response)
    (ht : AnsweredWith t t' response) : SameInputs s' t' := by
  have hs := hs.config
  have ht := ht.config
  refine ⟨?_, ?_, ?_, ?_, fun hl => ?_⟩
  · rw [hs.params, ht.params, h.rMax]
  · rw [hs.params, ht.params, h.bMax]
  · rw [hs.params, ht.params, h.q64]
  · rw [hs.life, ht.life, h.life]
  · rw [hs.wordBytes, hs.rounds, hs.keyBytesLen, hs.key, hs.klen, ht.wordBytes, ht.rounds, ht.keyBytesLen, ht.key,
      ht.klen]
    exact h.config (hs.life ▸ hl)

end SameInputs

/-! #### Runs -/

section Runs

variable {s t : State}

/-- A run whose first step answers goes on from there. -/
theorem run_succ (M : Host.Core) {s t : M.State} (h : M.step s = .next t) (n : Nat) : M.run (n + 1) s = M.run n t := by
  simp only [Host.Core.run, h]

theorem runSteps_succ (h : step s = .next t) (n : Nat) : State.runSteps (n + 1) s = State.runSteps n t :=
  run_succ Sys2Proof.core h n

theorem sameInputs_takeAction (h : SameInputs s t) : SameInputs s.takeAction t.takeAction :=
  ⟨h.rMax, h.bMax, h.q64, h.life, h.config⟩

/-- One step keeps indistinguishable states so: a packet gets from both the response their common inputs give, and after
a reset there is no configuration to compare. -/
theorem Indistinguishable.step (hs : s.Inv) (ht : t.Inv) (h : Indistinguishable s t) :
    ∃ s' t', step s = .next s' ∧ step t = .next t' ∧ Indistinguishable s' t' := by
  obtain ⟨hinputs, hinbox, houtbox⟩ := indistinguishable_iff.mp h
  match hin : s.inbox with
  | [] => exact ⟨s, t, step_idle hin, step_idle (hinbox ▸ hin), h⟩
  | .reset :: rest =>
    refine ⟨s.takeAction.hostReset, t.takeAction.hostReset, by simp [Machine.step, hin],
      by simp [Machine.step, ← hinbox, hin], indistinguishable_iff.mpr ⟨?_, congrArg List.tail hinbox, houtbox⟩⟩
    exact ⟨hinputs.rMax, hinputs.bMax, hinputs.q64, rfl, nofun⟩
  | .send p :: rest =>
    have htaken := sameInputs_takeAction hinputs
    obtain ⟨s', hs', has⟩ := step_answers hs.persistent hin
    obtain ⟨t', ht', hat⟩ := step_answers ht.persistent (hinbox ▸ hin)
    rw [← htaken.response] at hat
    refine ⟨s', t', hs', ht', indistinguishable_iff.mpr ⟨(htaken.constructed _).answered has hat, ?_, ?_⟩⟩
    · rw [has.inbox, hat.inbox, constructed_inbox, constructed_inbox, State.takeAction_inbox, State.takeAction_inbox,
        hinbox]
    · rw [has.outbox, hat.outbox, constructed_outbox, constructed_outbox, State.takeAction_outbox,
        State.takeAction_outbox, houtbox]

/-- The engine without a cache (rule R34). -/
def State.uncached (s : State) : State := { s with params := { s.params with cache := .never }, sCache := none }

theorem uncached_indistinguishable (s : State) : Indistinguishable s s.uncached :=
  ⟨rfl, rfl, rfl, rfl, rfl, rfl, fun _ => ⟨rfl, rfl, rfl, rfl, rfl⟩⟩

theorem inv_uncached (hs : s.Inv) : s.uncached.Inv := by
  refine ⟨⟨hs.persistent.params, fun hl => ?_, nofun⟩, hs.idle⟩
  obtain ⟨width, rounds, keyBytesLen, klen, key⟩ := hs.persistent.config hl
  exact ⟨width, rounds, keyBytesLen, klen, key⟩

theorem sameConfig_sending (s : State) (packets : List Packet) : SameConfig s (s.sending packets) :=
  ⟨rfl, rfl, rfl, rfl, rfl, rfl, rfl⟩

theorem inv_sending (hs : s.Inv) (packets : List Packet) : (s.sending packets).Inv :=
  ⟨(sameConfig_sending s packets).persistentOk rfl hs.persistent, hs.idle⟩

/-- A configured engine answers the first of the packets sent by its response and is left with the others. -/
theorem step_sending (hs : s.Inv) (hl : s.life = .configured) (p : Packet) (packets : List Packet) :
    ∃ t, step (s.sending (p :: packets)) = .next (t.sending packets) ∧ t.Inv ∧ SameConfig s t ∧
      t.outbox = s.outbox ++ [s.response (decode p)] := by
  have hinv := inv_sending hs (p :: packets)
  obtain ⟨t, ht, ha⟩ := step_answers hinv.persistent (p := p) (rest := packets.map .send) rfl
  rw [constructed_configured (s := (s.sending (p :: packets)).takeAction) hl] at ha
  have hsending : t.sending packets = t := by
    rw [State.sending, show packets.map .send = t.inbox from ha.inbox.symm]
  exact ⟨t, hsending.symm ▸ ht, everyStepKeepsTheInvariant _ t hinv ht, (sameConfig_sending s _).trans ha.config,
    ha.outbox⟩

end Runs

/-- Settles O40: the response is `State.response`, which the same configuration gives the same; by induction on the
packets. -/
theorem responsesDependOnThePacketAndTheConfiguration :
    Obligations.ResponsesDependOnThePacketAndTheConfiguration := by
  intro s _ hl
  refine ⟨fun p => s.response (decode p), fun s' hs' hsame packets => ?_⟩
  induction packets generalizing s' with
  | nil => exact ⟨_, rfl, (List.append_nil _).symm, sameConfig_sending s' []⟩
  | cons p packets ih =>
    obtain ⟨t, ht, hinv, hst, houtbox⟩ := step_sending hs' (hsame.life.trans hl) p packets
    obtain ⟨u, hu, huout, htu⟩ := ih t hinv (hsame.trans hst)
    refine ⟨u, (runSteps_succ ht _).trans hu, ?_, hst.trans htu⟩
    rw [huout, houtbox, ← hsame.sameInputs.response, List.append_assoc]
    rfl

/-- Settles O42, by induction on the steps. -/
theorem unspecifiedStateIsNeverObserved : Obligations.UnspecifiedStateIsNeverObserved := by
  intro s t n hs ht h
  induction n generalizing s t with
  | zero => exact ⟨s, t, rfl, rfl, h⟩
  | succ n ih =>
    obtain ⟨s', t', hs', ht', h'⟩ := h.step hs ht
    rw [runSteps_succ hs', runSteps_succ ht']
    exact ih s' t' (everyStepKeepsTheInvariant s s' hs hs') (everyStepKeepsTheInvariant t t' ht ht') h'

/-- Settles O43: the engine that recomputes `S` is indistinguishable from the one with a cache. -/
theorem cachingChangesNoResponse : Obligations.CachingChangesNoResponse := by
  intro s n hs
  obtain ⟨t, t', ht, ht', h⟩ :=
    unspecifiedStateIsNeverObserved s s.uncached n hs (inv_uncached hs) (uncached_indistinguishable s)
  exact ⟨t, t', ht, ht', h.outbox⟩

/-! #### The sequencer's invariant (rules R30, R33, R51)

One lemma per phase: from a good phase a tick goes to a good phase of the same command, until `OUT` answers. -/

section SequencerInvariant

variable {s t : State} {i : Instr} {g : KeyInputs} {x : Scratch}

/-- `t` is `s` inside a command, with a scratch state that its phase allows. -/
def State.GoodPhase (g : KeyInputs) (s t : State) : Prop := ∃ p x, t = s.inPhase p x ∧ PhaseOk g t

theorem goodPhase_inPhase {p : Phase} (h : PhaseOk g (s.inPhase p x)) : s.GoodPhase g (s.inPhase p x) := ⟨p, x, rfl, h⟩

theorem inPhase_self {p : Phase} (h : s.phase = p) : s.inPhase p s.scratch = s := by subst h; rfl

/-- With the key schedule in `S` every command goes on to a good phase (rules R125, R142, R158). -/
theorem goodPhase_afterSchedule (hi : isUse i) (hS : x.S = keyTable g) (p : Phase) :
    s.GoodPhase g ((s.inPhase p x).afterSchedule g i) := by
  have hlen : x.S.length = g.t := by rw [hS, keyTable_length]
  cases i with
  | init wb rounds kbl key => cases hi
  | ksched => exact ⟨.out, x, rfl, hlen, hS⟩
  | encrypt block => exact ⟨.encPre, x, rfl, hlen, hS⟩
  | decrypt block =>
    simp only [State.afterSchedule]
    split
    · exact ⟨.decPost, x, rfl, hlen, hS⟩
    · next hr => exact ⟨.decRnd, x.atRound g.rounds, rfl, hlen, hS, Nat.pos_of_ne_zero hr, le_rfl⟩

/-- `CHECK` starts with an empty `L`, or has the key schedule from a good cache (rule R34). -/
theorem goodPhase_enterSchedule (hi : isUse i) (hs : s.CacheOk) (hg : s.keyInputs? = some g) (p : Phase) (y : Scratch) :
    s.GoodPhase g ((s.inPhase p y).enterSchedule g i x) := by
  cases hc : s.sCache with
  | none =>
    rw [enterSchedule_uncached hc]
    exact goodPhase_inPhase ⟨g.c_pos, rfl⟩
  | some table =>
    rw [enterSchedule_cached hc]
    apply goodPhase_afterSchedule hi
    obtain ⟨-, -, g', hg', rfl⟩ := hs table hc
    rw [Option.some.inj (hg.symm.trans hg')]

/- The phases of the key schedule. -/

theorem goodPhase_tick_ksL (hg : s.keyInputs? = some g) (h : PhaseOk g (s.inPhase .ksL x))
    (ht : (s.inPhase .ksL x).tick i = .next t) : s.GoodPhase g t := by
  obtain ⟨hlt, hL⟩ : x.L.length < g.c ∧ x.L = (List.range x.L.length).map (keyWord g) := h
  have hx : x = x.partL g x.L.length := by rw [Scratch.partL, ← hL]
  rw [hx, tick_ksL hg] at ht
  cases ht
  split
  · next hmore => exact goodPhase_inPhase (by simpa [PhaseOk, State.inPhase, Scratch.partL] using hmore)
  · next hdone =>
    have hc : x.L.length + 1 = g.c := by omega
    exact goodPhase_inPhase (by simpa [PhaseOk, State.inPhase, Scratch.partL, Scratch.partS, hc] using g.t_pos)

/-- The tables the mixing loop starts from are those of `BuildL` and `InitS`. -/
theorem phaseOk_mixInit (hL : x.L = (List.range g.c).map (keyWord g)) :
    PhaseOk g (s.inPhase .ksMix (x.initS g).mixInit) := by
  obtain ⟨hS, hL', hi, hj⟩ := mixShape_start g x
  have hx : (x.initS g).mixInit = ((x.buildL g).initS g).mixInit := by rw [Scratch.buildL, ← hL]
  rw [hx]
  exact ⟨hL', hS, hi, hj, g.nMix_pos, keySchedule_S g x⟩

theorem goodPhase_tick_ksS (hg : s.keyInputs? = some g) (h : PhaseOk g (s.inPhase .ksS x))
    (ht : (s.inPhase .ksS x).tick i = .next t) : s.GoodPhase g t := by
  obtain ⟨hlt, hS, hL⟩ : x.S.length < g.t ∧ x.S = (List.range x.S.length).map (initWord g) ∧
    x.L = (List.range g.c).map (keyWord g) := h
  have hx : x = x.partS g x.S.length := by rw [Scratch.partS, ← hS]
  rw [hx, tick_ksS hg] at ht
  cases ht
  split
  · next hmore => exact goodPhase_inPhase (by simpa [PhaseOk, State.inPhase, Scratch.partS] using ⟨hmore, hL⟩)
  · next hdone =>
    have hlen : x.S.length + 1 = g.t := by omega
    rw [hlen]
    exact goodPhase_inPhase (phaseOk_mixInit hL)

theorem goodPhase_tick_ksMix (hi : isUse i) (hg : s.keyInputs? = some g) (h : PhaseOk g (s.inPhase .ksMix x))
    (ht : (s.inPhase .ksMix x).tick i = .next t) : s.GoodPhase g t := by
  obtain ⟨hL, hS, hxi, hxj, hk, htable⟩ : x.L.length = g.c ∧ x.S.length = g.t ∧ x.i < g.t ∧ x.j < g.c ∧ x.k < g.nMix ∧
    ((Scratch.mixStep g)^[g.nMix - x.k] x).S = keyTable g := h
  have hleft : g.nMix - x.k = g.nMix - (x.k + 1) + 1 := by omega
  rw [hleft, Function.iterate_succ_apply] at htable
  rw [tick_ksMix hg] at ht
  cases ht
  split
  · next hmore =>
    obtain ⟨hS', hL', hi', hj'⟩ := mixShape_mixStep ⟨hS, hL, hxi, hxj⟩
    exact goodPhase_inPhase ⟨hL', hS', hi', hj', hmore, htable⟩
  · next hdone =>
    rw [show g.nMix - (x.k + 1) = 0 by omega] at htable
    exact goodPhase_afterSchedule hi htable .ksMix

/- The phases of the datapath leave `S` alone and keep the round number between 1 and `R`. -/

theorem goodPhase_tick_encPre (hg : s.keyInputs? = some g) (h : PhaseOk g (s.inPhase .encPre x))
    (ht : (s.inPhase .encPre x).tick i = .next t) : s.GoodPhase g t := by
  obtain ⟨hlen, hS⟩ : x.S.length = g.t ∧ x.S = keyTable g := h
  rw [tick_inPhase hg (by decide) (by decide)] at ht
  cases ht
  simp only [State.tickLoop, State.inPhase]
  split
  · exact ⟨.out, _, rfl, hlen, hS⟩
  · next hr => exact ⟨.encRnd, (x.encPre g.w).atRound 1, rfl, hlen, hS, le_rfl, Nat.pos_of_ne_zero hr⟩

theorem goodPhase_tick_encRnd (hg : s.keyInputs? = some g) (h : PhaseOk g (s.inPhase .encRnd x))
    (ht : (s.inPhase .encRnd x).tick i = .next t) : s.GoodPhase g t := by
  obtain ⟨hlen, hS, -, -⟩ : x.S.length = g.t ∧ x.S = keyTable g ∧ 1 ≤ x.r ∧ x.r ≤ g.rounds := h
  cases (tick_encRnd (i := i) hg x.r x).symm.trans ht
  split
  · next hmore => exact goodPhase_inPhase ⟨hlen, hS, Nat.le_add_left .., hmore⟩
  · exact goodPhase_inPhase ⟨hlen, hS⟩

theorem goodPhase_tick_decRnd (hg : s.keyInputs? = some g) (h : PhaseOk g (s.inPhase .decRnd x))
    (ht : (s.inPhase .decRnd x).tick i = .next t) : s.GoodPhase g t := by
  obtain ⟨hlen, hS, -, hle⟩ : x.S.length = g.t ∧ x.S = keyTable g ∧ 1 ≤ x.r ∧ x.r ≤ g.rounds := h
  cases (tick_decRnd (i := i) hg x.r x).symm.trans ht
  split
  · next hmore => exact goodPhase_inPhase ⟨hlen, hS, Nat.le_sub_one_of_lt hmore, (Nat.sub_le ..).trans hle⟩
  · exact goodPhase_inPhase ⟨hlen, hS⟩

theorem goodPhase_tick_decPost (hg : s.keyInputs? = some g) (h : PhaseOk g (s.inPhase .decPost x))
    (ht : (s.inPhase .decPost x).tick i = .next t) : s.GoodPhase g t := by
  rw [tick_inPhase hg (by decide) (by decide)] at ht
  cases ht
  exact ⟨.out, x.decPost g.w, rfl, h⟩

/-- Every loop phase goes to a good phase. -/
theorem goodPhase_tick (hi : isUse i) (hg : s.keyInputs? = some g) {p : Phase} (hidle : p ≠ .idle) (hcheck : p ≠ .check)
    (hout : p ≠ .out) (h : PhaseOk g (s.inPhase p x)) (ht : (s.inPhase p x).tick i = .next t) : s.GoodPhase g t := by
  cases p with
  | idle => exact absurd rfl hidle
  | check => exact absurd rfl hcheck
  | ksL => exact goodPhase_tick_ksL hg h ht
  | ksS => exact goodPhase_tick_ksS hg h ht
  | ksMix => exact goodPhase_tick_ksMix hi hg h ht
  | encPre => exact goodPhase_tick_encPre hg h ht
  | encRnd => exact goodPhase_tick_encRnd hg h ht
  | decRnd => exact goodPhase_tick_decRnd hg h ht
  | decPost => exact goodPhase_tick_decPost hg h ht
  | out => exact absurd rfl hout

/- From good phases to the invariant. -/

theorem persistentOk_inPhase (hs : s.PersistentOk) (p : Phase) (x : Scratch) : (s.inPhase p x).PersistentOk :=
  SameConfig.persistentOk (s := s) ⟨rfl, rfl, rfl, rfl, rfl, rfl, rfl⟩ rfl hs

theorem State.Inv.sequencerInv (hs : s.Inv) : s.SequencerInv := ⟨hs.persistent, fun h => absurd hs.idle h⟩

theorem State.GoodPhase.sequencerInv (hs : s.PersistentOk) (hl : s.life = .configured) (hk : s.keyPasses)
    (hg : s.keyInputs? = some g) (h : s.GoodPhase g t) : t.SequencerInv := by
  obtain ⟨p, x, rfl, hp⟩ := h
  exact ⟨persistentOk_inPhase hs p x, fun _ _ => ⟨hl, hk, g, hg, hp⟩⟩

theorem sequencerInv_startCommand (hs : s.PersistentOk) : s.startCommand.SequencerInv :=
  ⟨persistentOk_inPhase hs .check s.scratch, fun _ h => absurd rfl h⟩

/-- `CHECK` ends in an error or enters the key schedule. -/
theorem sequencerInv_tick_check (hi : isUse i) (hs : s.PersistentOk) (ht : s.startCommand.tick i = .next t) :
    t.SequencerInv := by
  cases hl : s.life with
  | unconfigured =>
    rw [tick_unconfigured hi hl] at ht
    cases ht
    exact (inv_raise hs _).sequencerInv
  | configured =>
    by_cases hk : s.keyPasses
    · by_cases hb : s.operandPasses i
      · obtain ⟨g, hg⟩ := keyInputs?_of_isSome (hs.config hl).width
        rw [tick_passes hi hl hk hb hg, startCommand_eq_inPhase] at ht
        cases ht
        exact (goodPhase_enterSchedule hi hs.cache hg .check s.scratch).sequencerInv hs hl hk hg
      · rw [tick_badOperand hl hk hb] at ht
        cases ht
        exact (inv_raise hs _).sequencerInv
    · rw [tick_badKey hi hl hk] at ht
      cases ht
      exact (inv_raise hs _).sequencerInv

/-- `OUT` keeps the key schedule where there is a cache, and ends the command. -/
theorem sequencerInv_tick_out (hs : s.PersistentOk) (hl : s.life = .configured) (hk : s.keyPasses)
    (hg : s.keyInputs? = some g) (h : PhaseOk g (s.inPhase .out x)) (ht : (s.inPhase .out x).tick i = .next t) :
    t.SequencerInv := by
  obtain ⟨-, hS⟩ : x.S.length = g.t ∧ x.S = keyTable g := h
  have hp := persistentOk_inPhase hs .out x
  have hcache : ((s.inPhase .out x).keepTable x.S).CacheOk := hS ▸ cacheOk_keepTable hp.cache hl hk hg
  rw [tick_inPhase hg (by decide) (by decide)] at ht
  cases ht
  exact ((keepTable_respond_answered (s.inPhase .out x) x.S .ok _).inv hp hcache).sequencerInv

/-- Every tick of a use keeps the invariant. -/
theorem sequencerInv_tick (hi : isUse i) (hs : s.SequencerInv) (ht : s.tick i = .next t) : t.SequencerInv := by
  cases hp : s.phase with
  | idle =>
    rw [State.tick, hp] at ht
    cases ht
    exact hs
  | check =>
    rw [← inPhase_self hp] at ht
    exact sequencerInv_tick_check hi hs.persistent ht
  | out =>
    obtain ⟨hl, hk, g, hg, h⟩ := hs.running (by simp [hp]) (by simp [hp])
    rw [← inPhase_self hp] at h ht
    exact sequencerInv_tick_out hs.persistent hl hk hg h ht
  | _ =>
    obtain ⟨hl, hk, g, hg, h⟩ := hs.running (by simp [hp]) (by simp [hp])
    rw [← inPhase_self hp] at h ht
    exact (goodPhase_tick hi hg (by decide) (by decide) (by decide) h ht).sequencerInv hs.persistent hl hk hg

end SequencerInvariant

/-- Settles O46: a command starts in `CHECK`, of which nothing is asked, and each phase leads to a good one. -/
theorem sequencerKeepsItsIndicesInRange : Obligations.SequencerKeepsItsIndicesInRange :=
  ⟨fun _ hs => sequencerInv_startCommand hs.persistent, fun _ _ _ hs hi ht => sequencerInv_tick hi hs ht⟩

end Sys2Proof.Machine

/-! ### Memory: two commands of one lifetime in either order (rule R54) -/

namespace Sys2Proof.Machine

section Commute

variable {s t : State}

theorem SameConfig.symm (h : SameConfig s t) : SameConfig t s :=
  ⟨h.life.symm, h.wordBytes.symm, h.rounds.symm, h.keyBytesLen.symm, h.key.symm, h.klen.symm, h.params.symm⟩

/-- In a lifetime the first of two commands leaves the inputs of the second, so each gets the response of the state in
which the two began; the first may fill the cache, but a good cache changes no response (rules R26, R34). -/
theorem exec_exec_configured (hs : s.Inv) (hl : s.life = .configured) (i j : Instr) :
    ∃ t u, exec i s = .next t ∧ exec j t = .next u ∧
      u.outbox = s.outbox ++ [s.response (.instr i), s.response (.instr j)] ∧ SameConfig s u := by
  obtain ⟨t, ht, hst⟩ := exec_answers hs.persistent i
  rw [constructed_configured hl] at hst
  obtain ⟨u, hu, htu⟩ := exec_answers (exec_keeps_inv hs.persistent ht).persistent j
  rw [constructed_configured (hst.config.life.trans hl), ← hst.config.sameInputs.response] at htu
  refine ⟨t, u, ht, hu, ?_, hst.config.trans htu.config⟩
  rw [htu.outbox, hst.outbox, List.append_assoc, List.singleton_append]

end Commute

/-- Settles O41: in both orders the responses are those of the first state, whose configuration is left as it was. -/
theorem usesCommute : Obligations.UsesCommute := by
  intro s i j hs hl _ _
  obtain ⟨t, t', ht, ht', hout, hconfig⟩ := exec_exec_configured hs hl i j
  obtain ⟨u, u', hu, hu', hout', hconfig'⟩ := exec_exec_configured hs hl j i
  exact ⟨t, t', u, u', _, _, ht, ht', hu, hu', hout, hout', hconfig.symm.trans hconfig'⟩

end Sys2Proof.Machine

/-! ### Encoding: packets and commands, and the response of a packet (rules R60 to R74) -/

namespace Sys2Proof

/-! #### Operand fields (rules R63 to R67) -/

section OperandFields

variable (wb : Byte) (rounds kbl klen v : BitVec 32) (key rest : List Byte)

/-- The bytes after the opcode of a packet of format I (rule R63), with any length field. -/
def initOperands (wb : Byte) (rounds kbl klen : BitVec 32) (key : List Byte) : List Byte :=
  wb :: (bytesOfField rounds ++ bytesOfField kbl ++ bytesOfField klen ++ key)

theorem encode_init :
    encode (.init wb rounds kbl key) = opInit :: initOperands wb rounds kbl (BitVec.ofNat 32 key.length) key := rfl

theorem initOperands_length : (initOperands wb rounds kbl klen key).length = 13 + key.length := by
  simp only [initOperands, List.length_cons, List.length_append, bytesOfField_length]
  omega

theorem initOperands_append :
    initOperands wb rounds kbl klen key ++ rest = initOperands wb rounds kbl klen (key ++ rest) := by
  simp only [initOperands, List.cons_append, List.append_assoc]

/-- Any four bytes are a 32-bit field (rule R67). -/
theorem exists_eq_bytesOfField_append {l : List Byte} (h : 4 ≤ l.length) : ∃ v rest, l = bytesOfField v ++ rest := by
  obtain ⟨b0, b1, b2, b3, hl⟩ := List.length_eq_four.mp (List.length_take_of_le h)
  refine ⟨fieldOfBytes b0 b1 b2 b3, l.drop 4, ?_⟩
  rw [bytesOfField_fieldOfBytes, ← hl, List.take_append_drop]

/-- Any 13 bytes or more are the operands of format I. -/
theorem exists_eq_initOperands {l : List Byte} (h : 13 ≤ l.length) :
    ∃ wb rounds kbl klen key, l = initOperands wb rounds kbl klen key := by
  obtain ⟨wb, l, rfl⟩ := List.exists_cons_of_length_pos (Nat.lt_of_lt_of_le (by decide) h)
  rw [List.length_cons] at h
  obtain ⟨rounds, l, rfl⟩ := exists_eq_bytesOfField_append (l := l) (by omega)
  rw [List.length_append, bytesOfField_length] at h
  obtain ⟨kbl, l, rfl⟩ := exists_eq_bytesOfField_append (l := l) (by omega)
  rw [List.length_append, bytesOfField_length] at h
  obtain ⟨klen, key, rfl⟩ := exists_eq_bytesOfField_append (l := l) (by omega)
  exact ⟨wb, rounds, kbl, klen, key, by simp only [initOperands, List.append_assoc]⟩

/-- The four bytes of a field have its value in the sum of rule R67. -/
theorem byteSum_bytesOfField :
    (v.extractLsb' 0 8).toNat + 256 * (v.extractLsb' 8 8).toNat + 65536 * (v.extractLsb' 16 8).toNat +
      16777216 * (v.extractLsb' 24 8).toNat = v.toNat := by
  rw [← fieldOfBytes_toNat, fieldOfBytes_extract]

/-- The reference reads a field at the offset where it stands, whatever is before and after it. -/
theorem field32_bytesOfField (front : List Byte) :
    Machine.Ref.field32 (front ++ (bytesOfField v ++ rest)) front.length = v.toNat := by
  simpa [Machine.Ref.field32, bytesOfField, List.getD_append_right] using byteSum_bytesOfField v

end OperandFields

/-! #### The decoder and the format tables (rules R62 to R69, R73) -/

section Decoder

variable (wb n op : Byte) (rounds kbl klen : BitVec 32) (key block operands : List Byte)

theorem decodeInit_initOperands :
    decodeInit (initOperands wb rounds kbl klen key) =
      if key.length = klen.toNat then .instr (.init wb rounds kbl key) else .illegal .malformed := by
  simp [initOperands, bytesOfField, decodeInit, fieldOfBytes_extract]

theorem decodeInit_short {l : List Byte} (h : l.length < 13) : decodeInit l = .illegal .malformed := by
  unfold decodeInit
  split
  · simp only [List.length_cons] at h; omega
  · rfl

/-- The reference reads format I at the offsets of rule R63. -/
theorem command_initOperands :
    Machine.Ref.command (opInit :: initOperands wb rounds kbl klen key) =
      if key.length = klen.toNat then some (.init wb rounds kbl key) else none := by
  set p : Packet := opInit :: initOperands wb rounds kbl klen key with hp
  have hwb : p[1]? = some wb := rfl
  have hrounds : Machine.Ref.field32 p 2 = rounds.toNat := field32_bytesOfField rounds _ [opInit, wb]
  have hkbl : Machine.Ref.field32 p 6 = kbl.toNat := field32_bytesOfField kbl _ (opInit :: wb :: bytesOfField rounds)
  have hklen : Machine.Ref.field32 p 10 = klen.toNat :=
    field32_bytesOfField klen key (opInit :: wb :: (bytesOfField rounds ++ bytesOfField kbl))
  have hkey : p.drop 14 = key := rfl
  have hopcode : p.head? = some 0x01 := rfl
  have hlength : p.length = 14 + key.length := by
    rw [hp, List.length_cons, initOperands_length]
    omega
  simp [Machine.Ref.command, hwb, hrounds, hkbl, hklen, hkey, hopcode, hlength]

theorem command_init_short {l : List Byte} (h : l.length < 13) : Machine.Ref.command (opInit :: l) = none := by
  have hlength : ¬14 ≤ l.length + 1 := by omega
  simp [Machine.Ref.command, opInit, hlength]

theorem command_ksched :
    Machine.Ref.command (opKsched :: operands) = if operands = [] then some .ksched else none := by
  simp [Machine.Ref.command, opKsched]

theorem command_encrypt :
    Machine.Ref.command (opEncrypt :: n :: block) = if block.length = n.toNat then some (.encrypt block) else none := by
  have hlength : block.length + 1 + 1 = 2 + n.toNat ↔ block.length = n.toNat := by omega
  simp [Machine.Ref.command, opEncrypt, hlength]

theorem command_decrypt :
    Machine.Ref.command (opDecrypt :: n :: block) = if block.length = n.toNat then some (.decrypt block) else none := by
  have hlength : block.length + 1 + 1 = 2 + n.toNat ↔ block.length = n.toNat := by omega
  simp [Machine.Ref.command, opDecrypt, hlength]

/-- Rule R62: the four defined opcodes, and the rest. -/
theorem opcode_cases :
    op = opInit ∨ op = opKsched ∨ op = opEncrypt ∨ op = opDecrypt ∨
      (op ≠ opInit ∧ op ≠ opKsched ∧ op ≠ opEncrypt ∧ op ≠ opDecrypt) := by tauto

/-- The reserved opcodes of rule R69 by their numbers. -/
theorem reserved_iff :
    (op ≠ opInit ∧ op ≠ opKsched ∧ op ≠ opEncrypt ∧ op ≠ opDecrypt) ↔ ¬(1 ≤ op.toNat ∧ op.toNat ≤ 4) := by
  simp only [ne_eq, ← BitVec.toNat_inj, show opInit.toNat = 1 from rfl, show opKsched.toNat = 2 from rfl,
    show opEncrypt.toNat = 3 from rfl, show opDecrypt.toNat = 4 from rfl]
  omega

theorem command_reserved (h : op ≠ opInit ∧ op ≠ opKsched ∧ op ≠ opEncrypt ∧ op ≠ opDecrypt) :
    Machine.Ref.command (op :: operands) = none := by
  obtain ⟨hinit, hksched, hencrypt, hdecrypt⟩ := h
  simp only [Machine.Ref.command, List.head?_cons, Option.some.injEq]
  rw [if_neg (fun h => hinit h.1), if_neg (fun h => hksched h.1), if_neg (fun h => hencrypt h.1),
    if_neg (fun h => hdecrypt h.1)]

/-- What rules R68 and R69 call a packet with this opcode that is not well-formed. -/
def illegalReason (op : Byte) : IllegalReason :=
  if 1 ≤ op.toNat ∧ op.toNat ≤ 4 then .malformed else .reservedOpcode

/-- The decoder reads the command of the format tables and names what is wrong where there is none. -/
def FollowsTables (p : Packet) (why : IllegalReason) : Prop :=
  decode p = (Machine.Ref.command p).elim (.illegal why) .instr

theorem followsTables_init : FollowsTables (opInit :: operands) .malformed := by
  rw [FollowsTables, decode_init]
  rcases Nat.lt_or_ge operands.length 13 with hshort | hlong
  · rw [decodeInit_short hshort, command_init_short hshort]; rfl
  · obtain ⟨wb, rounds, kbl, klen, key, rfl⟩ := exists_eq_initOperands hlong
    rw [decodeInit_initOperands, command_initOperands]
    split <;> rfl

theorem followsTables_ksched : FollowsTables (opKsched :: operands) .malformed := by
  rw [FollowsTables, decode_ksched, command_ksched]
  cases operands <;> rfl

theorem followsTables_encrypt : FollowsTables (opEncrypt :: operands) .malformed := by
  rw [FollowsTables, decode_encrypt]
  cases operands with
  | nil => rfl
  | cons n block => rw [decodeBlockFormat, command_encrypt]; split <;> rfl

theorem followsTables_decrypt : FollowsTables (opDecrypt :: operands) .malformed := by
  rw [FollowsTables, decode_decrypt]
  cases operands with
  | nil => rfl
  | cons n block => rw [decodeBlockFormat, command_decrypt]; split <;> rfl

theorem followsTables_cons : FollowsTables (op :: operands) (illegalReason op) := by
  rcases opcode_cases op with rfl | rfl | rfl | rfl | h
  · exact followsTables_init operands
  · exact followsTables_ksched operands
  · exact followsTables_encrypt operands
  · exact followsTables_decrypt operands
  · rw [FollowsTables, decode_reserved op operands h, command_reserved op operands h, illegalReason,
      if_neg ((reserved_iff op).mp h)]
    rfl

end Decoder

/-! #### One packet per command (rules R73, R74) -/

section RoundTrip

/-- What the decoder of format I accepts (rule R63). -/
theorem decodeInit_eq_instr_iff {operands : List Byte} {i : Instr} :
    decodeInit operands = .instr i ↔ ∃ wb rounds kbl key, keyFits key ∧
      initOperands wb rounds kbl (BitVec.ofNat 32 key.length) key = operands ∧ .init wb rounds kbl key = i := by
  constructor
  · intro h
    rcases Nat.lt_or_ge operands.length 13 with hshort | hlong
    · rw [decodeInit_short hshort] at h; cases h
    · obtain ⟨wb, rounds, kbl, klen, key, rfl⟩ := exists_eq_initOperands hlong
      rw [decodeInit_initOperands] at h
      split at h
      · rename_i hklen
        cases h
        obtain ⟨hfits, rfl⟩ := BitVec.nat_eq_toNat.mp hklen
        exact ⟨wb, rounds, kbl, key, decide_eq_true hfits, rfl, rfl⟩
      · cases h
  · rintro ⟨wb, rounds, kbl, key, hfits, rfl, rfl⟩
    rw [decodeInit_initOperands, if_pos (BitVec.nat_eq_toNat.mpr ⟨of_decide_eq_true hfits, rfl⟩)]

/-- What the decoder of format N accepts (rule R64). -/
theorem decodeKsched_eq_instr_iff {operands : List Byte} {i : Instr} :
    decodeKsched operands = .instr i ↔ operands = [] ∧ .ksched = i := by
  cases operands <;> simp [decodeKsched]

/-- What the decoder of format B accepts, for either command (rules R65, R66). -/
theorem decodeBlockFormat_eq_instr_iff {command : List Byte → Instr} {operands : List Byte} {i : Instr} :
    decodeBlockFormat command operands = .instr i ↔ ∃ block, blockFits block ∧
      BitVec.ofNat 8 block.length :: block = operands ∧ command block = i := by
  constructor
  · intro h
    cases operands with
    | nil => cases h
    | cons n block =>
      rw [decodeBlockFormat] at h
      split at h
      · rename_i hn
        cases h
        obtain ⟨hfits, rfl⟩ := BitVec.nat_eq_toNat.mp hn
        exact ⟨block, decide_eq_true hfits, rfl, rfl⟩
      · cases h
  · rintro ⟨block, hfits, rfl, rfl⟩
    rw [decodeBlockFormat, if_pos (BitVec.nat_eq_toNat.mpr ⟨of_decide_eq_true hfits, rfl⟩)]

/-- Each format's length field holds the length of its operand, so its decoder accepts what `encode` writes. -/
theorem decode_encode {i : Instr} (h : i.wf) : decode (encode i) = .instr i := by
  cases i with
  | init wb rounds kbl key =>
    exact (decode_init _).trans (decodeInit_eq_instr_iff.mpr ⟨wb, rounds, kbl, key, h, rfl, rfl⟩)
  | ksched => rfl
  | encrypt block => exact (decode_encrypt _).trans (decodeBlockFormat_eq_instr_iff.mpr ⟨block, h, rfl, rfl⟩)
  | decrypt block => exact (decode_decrypt _).trans (decodeBlockFormat_eq_instr_iff.mpr ⟨block, h, rfl, rfl⟩)

/-- The operands that each format's decoder accepts are those `encode` writes. -/
theorem encode_of_decode {p : Packet} {i : Instr} (h : decode p = .instr i) : i.wf ∧ encode i = p := by
  cases p with
  | nil => cases h
  | cons op operands =>
    rcases opcode_cases op with rfl | rfl | rfl | rfl | hop
    · rw [decode_init] at h
      obtain ⟨wb, rounds, kbl, key, hfits, rfl, rfl⟩ := decodeInit_eq_instr_iff.mp h
      exact ⟨hfits, rfl⟩
    · rw [decode_ksched] at h
      obtain ⟨rfl, rfl⟩ := decodeKsched_eq_instr_iff.mp h
      exact ⟨rfl, rfl⟩
    · rw [decode_encrypt] at h
      obtain ⟨block, hfits, rfl, rfl⟩ := decodeBlockFormat_eq_instr_iff.mp h
      exact ⟨hfits, rfl⟩
    · rw [decode_decrypt] at h
      obtain ⟨block, hfits, rfl, rfl⟩ := decodeBlockFormat_eq_instr_iff.mp h
      exact ⟨hfits, rfl⟩
    · rw [decode_reserved op operands hop] at h
      cases h

theorem packetLength_initOperands (wb : Byte) (rounds kbl klen : BitVec 32) (rest : List Byte) :
    packetLength (opInit :: initOperands wb rounds kbl klen rest) = some (14 + klen.toNat) := by
  simp [packetLength, initOperands, bytesOfField, fieldOfBytes_extract]

theorem packetLength_ksched (rest : List Byte) : packetLength (opKsched :: rest) = some 1 := by
  simp [packetLength, show opKsched ≠ opInit by decide]

theorem packetLength_encrypt (n : Byte) (rest : List Byte) :
    packetLength (opEncrypt :: n :: rest) = some (2 + n.toNat) := by
  simp [packetLength, show opEncrypt ≠ opInit by decide, show opEncrypt ≠ opKsched by decide]

theorem packetLength_decrypt (n : Byte) (rest : List Byte) :
    packetLength (opDecrypt :: n :: rest) = some (2 + n.toNat) := by
  simp [packetLength, show opDecrypt ≠ opInit by decide, show opDecrypt ≠ opKsched by decide]

/-- How long a packet of each format is, by the operand it carries (rule R74). -/
def formatLength : Instr → Nat
  | .init _ _ _ key => 14 + key.length
  | .ksched => 1
  | .encrypt block => 2 + block.length
  | .decrypt block => 2 + block.length

theorem encode_length (i : Instr) : (encode i).length = formatLength i := by
  cases i with
  | init wb rounds kbl key =>
    rw [encode_init, List.length_cons, initOperands_length, formatLength]; omega
  | ksched => rfl
  | _ block => rw [encode, formatLength, List.length_cons, List.length_cons]; omega

theorem packetLength_encode {i : Instr} (h : i.wf) (rest : List Byte) :
    packetLength (encode i ++ rest) = some (formatLength i) := by
  cases i with
  | init wb rounds kbl key =>
    rw [encode_init, List.cons_append, initOperands_append, packetLength_initOperands,
      BitVec.toNat_eq_nat.mpr ⟨of_decide_eq_true h, rfl⟩, formatLength]
  | ksched => exact packetLength_ksched rest
  | encrypt block =>
    exact (packetLength_encrypt _ _).trans (by rw [BitVec.toNat_eq_nat.mpr ⟨of_decide_eq_true h, rfl⟩, formatLength])
  | decrypt block =>
    exact (packetLength_decrypt _ _).trans (by rw [BitVec.toNat_eq_nat.mpr ⟨of_decide_eq_true h, rfl⟩, formatLength])

end RoundTrip

/-- Settles O1: each packet is decoded as it stands. -/
theorem specPacketsDecodeToTheirCommands : Obligations.SpecPacketsDecodeToTheirCommands := by
  unfold Obligations.SpecPacketsDecodeToTheirCommands
  decide

/-- Settles O2, format by format in `decode_encode`. -/
theorem encodeThenDecodeGivesTheCommandBack : Obligations.EncodeThenDecodeGivesTheCommandBack :=
  fun _ => decode_encode

/-- Settles O3, opcode by opcode in `encode_of_decode`. -/
theorem decodedPacketIsTheOneEncoding : Obligations.DecodedPacketIsTheOneEncoding :=
  fun _ _ => encode_of_decode

/-- Settles O4: the empty packet has no opcode, and `followsTables_cons` takes the others opcode by opcode. -/
theorem decoderFollowsTheFormatTables : Obligations.DecoderFollowsTheFormatTables := by
  intro p
  cases p with
  | nil => exact ⟨fun _ => nofun, fun _ => ⟨fun _ => decode_nil, nofun⟩⟩
  | cons op operands =>
    have h : FollowsTables (op :: operands) (illegalReason op) := followsTables_cons op operands
    refine ⟨fun i hi => by rw [h, hi]; rfl, fun hnone => ⟨nofun, ?_⟩⟩
    rintro _ _ ⟨⟩
    rw [h, hnone]; rfl

/-- Settles O5: the header is read, and the packet measured, format by format. -/
theorem packetLengthIsFoundFromTheHeader : Obligations.PacketLengthIsFoundFromTheHeader := by
  intro i rest h
  have hlength := encode_length i
  refine ⟨hlength ▸ packetLength_encode h rest, hlength.trans ?_⟩
  cases i <;> rfl

namespace Machine

/-! #### The response of a packet (rules R68 to R72) -/

section PacketResponse

variable {s : State} {p : Packet}

/-- A packet that satisfies no format is `Illegal` (rules R68, R69). -/
theorem decode_illegal (h : Ref.command p = none) : ∃ why, decode p = .illegal why := by
  obtain ⟨-, hillegal⟩ := decoderFollowsTheFormatTables p
  cases p with
  | nil => exact ⟨_, decode_nil⟩
  | cons op operands => exact ⟨_, (hillegal h).2 op operands rfl⟩

theorem step_illegal {rest : List HostAction} {why : IllegalReason} (h : s.inbox = .send p :: rest)
    (hd : decode p = .illegal why) : step s = .next (s.takeAction.raise .illegalCommand) := by simp [step, h, hd]

/-- No payload is longer than the key schedule, which has at least the two words of a block. -/
theorem keyInputs_payload_length_le (g : KeyInputs) (i : Instr) : (g.payload i).length ≤ g.t * g.w.bytes := by
  have hblock : g.w.bytes + g.w.bytes ≤ g.t * g.w.bytes :=
    (Nat.two_mul _).symm.trans_le (Nat.mul_le_mul_right _ (by rw [KeyInputs.t]; omega))
  cases i with
  | init wb rounds kbl key => exact Nat.zero_le _
  | ksched => simp [KeyInputs.payload]
  | _ block =>
    simpa only [KeyInputs.payload, Scratch.encryptLoaded, Scratch.decryptLoaded, Scratch.encodeBlock_blk,
      List.length_append, leEnc_length] using hblock

/-- The payload of a command whose tests pass fits the 32-bit length field (rules R70, R72). -/
theorem payload_length_lt {c : Cmd} (hs : s.PersistentOk) (h : Ref.status s c = .ok) :
    (s.payload c).length < 2 ^ 32 := by
  have huse {i : Instr} (hi : isUse i) (h : Ref.status s (.instr i) = .ok) : (s.payload (.instr i)).length < 2 ^ 32 := by
    obtain ⟨hl, -, -⟩ := (status_use_eq_ok_iff hi).mp h
    obtain ⟨g, hg⟩ := keyInputs?_of_isSome (hs.config hl).width
    obtain ⟨-, -, -, -, hbytes⟩ := countersFitTheirWidths s g hs hl hg
    have hlength := keyInputs_payload_length_le g i
    rw [payload_instr hg]
    omega
  cases c with
  | illegal why => cases h
  | instr i =>
    cases i with
    | init wb rounds kbl key => rw [payload_init]; decide
    | _ => exact huse rfl h

/-- A response in the form of rule R70, its status numbered as rule R71 does. -/
theorem response_eq (s : State) (c : Cmd) (hs : s.PersistentOk) :
    ∃ (m : BitVec 32) (payload : List Byte), s.response c = Ref.code (Ref.status s c) :: (bytesOfField m ++ payload) ∧
      m.toNat = payload.length ∧ (Ref.status s c ≠ .ok → payload = []) := by
  by_cases h : Ref.status s c = .ok
  · exact ⟨_, s.payload c, by rw [response_of_ok h, h]; rfl,
      BitVec.toNat_eq_nat.mpr ⟨payload_length_lt hs h, rfl⟩, fun hne => absurd h hne⟩
  · exact ⟨0, [], by rw [response_of_error rfl h, responsePacket, Status.code_eq]; rfl, rfl, fun _ => rfl⟩

end PacketResponse

/-- Settles O8: the decoder refuses the packet, whatever the state, and the engine raises the error. -/
theorem illegalPacketsAreAnsweredIllegalCommand : Obligations.IllegalPacketsAreAnsweredIllegalCommand := by
  intro s p rest h hnone
  obtain ⟨why, hd⟩ := decode_illegal hnone
  refine ⟨_, step_illegal h hd, ?_, rfl⟩
  rw [takeAction_eq h]
  exact raise_rejected _ .illegalCommand

/-- Settles O36: `step_answers` gives the one response, and `response_eq` its form. -/
theorem everyPacketGetsOneResponse : Obligations.EveryPacketGetsOneResponse := by
  intro s p rest hs h
  obtain ⟨t, hstep, hanswered⟩ := step_answers hs.persistent h
  obtain ⟨m, payload, hresponse, hm, herror⟩ :=
    response_eq s.takeAction (decode p) (persistentOk_takeAction hs.persistent)
  have hout := hanswered.outbox
  rw [constructed_outbox, State.takeAction_outbox, hresponse] at hout
  rw [← (sameConfig_takeAction s).sameInputs.status (decode p)] at hout herror
  refine ⟨t, _, m, payload, hstep, hout, hm, ?_, fun hcode => herror fun hok => hcode (by rw [hok]; rfl)⟩
  cases Ref.status s (decode p) <;> rfl

end Machine

end Sys2Proof

/-! ### Construction: `INIT`, and an engine built with a bad key (rules R85 to R89) -/

namespace Sys2Proof.Machine

section Construction

variable {s : State} {wb : BitVec 8} {rounds kbl : BitVec 32} {key : List Byte}

/-- The configuration tests of `INIT` fail exactly when one of the four of rule R86 does. -/
theorem not_configLegal_iff :
    ¬s.configLegal wb rounds kbl key ↔
      (wb ≠ 2 ∧ wb ≠ 4 ∧ wb ≠ 8) ∨ s.params.rMax < rounds.toNat ∨ s.params.bMax < kbl.toNat ∨
        s.params.bMax < key.length := by
  simp only [configLegal_iff, not_and_or, not_or, Nat.not_le]

/-- An `INIT` whose tests pass stores the configuration and the key and answers `OK`; filling the cache writes neither
(rules R85, R90). -/
theorem exec_init_ok (hl : s.life = .unconfigured) (hc : s.configLegal wb rounds kbl key) :
    ∃ t, exec (.init wb rounds kbl key) s = .next t ∧
      AnsweredWith (s.construct wb rounds kbl key) t [0x00, 0, 0, 0, 0] :=
  have h := respond_answered (s.construct wb rounds kbl key).fillAtInit .ok []
  ⟨_, execInit_legal hl hc, (sameConfig_fillAtInit _).trans h.config, h.inbox, h.outbox, h.phase⟩

/-- The key tests of a constructed engine, in the fields of its `INIT` (rules R87, R116). -/
theorem construct_keyPasses_iff (hp : s.params.Legal) (hc : s.configLegal wb rounds kbl key) :
    (s.construct wb rounds kbl key).keyPasses ↔ key.length = kbl.toNat ∧ key.length % wb.toNat = 0 := by
  have hlen : key.length = (s.construct wb rounds kbl key).klen.toNat := (configOk_construct hp hc).key
  rw [keyPasses_iff, ← BitVec.toNat_inj, ← hlen]
  rfl

/-- A configured engine answers every packet it is sent and keeps its configuration (rule R26). -/
theorem runSteps_sending (hs : s.Inv) (hl : s.life = .configured) (packets : List Packet) :
    ∃ t, State.runSteps packets.length (s.sending packets) = .next t ∧ SameConfig s t := by
  obtain ⟨_, hrun⟩ := responsesDependOnThePacketAndTheConfiguration s hs hl
  obtain ⟨t, ht, -, hst⟩ := hrun s hs (.refl s) packets
  exact ⟨t, ht, hst⟩

end Construction

/-- Settles O10, by the lifecycle and the configuration tests. The length register is exact because the limits are
legal. -/
theorem initFollowsItsPseudocode : Obligations.InitFollowsItsPseudocode := by
  intro s wb rounds kbl key
  refine ⟨fun hl => ⟨_, execInit_configured hl, raise_rejected s _⟩,
    fun hl hbad => ⟨_, execInit_illegal hl (not_configLegal_iff.mpr hbad), raise_rejected s _⟩,
    fun hl hp hwb hrounds hkbl hkey => ?_⟩
  have hc := configLegal_iff.mpr ⟨hwb, hrounds, hkbl, hkey⟩
  obtain ⟨t, ht, hconfig, hinbox, houtbox, hphase⟩ := exec_init_ok hl hc
  have hklen : t.klen.toNat = key.length :=
    (congrArg BitVec.toNat hconfig.klen).trans (configOk_construct hp hc).key.symm
  exact ⟨t, ht, hconfig.life, hconfig.wordBytes, hconfig.rounds, hconfig.keyBytesLen, hconfig.key, hklen, hconfig.params,
    hphase, hinbox, houtbox⟩

/-- Settles O12: no packet changes the configuration, so the key tests go on failing as they did when the engine was
constructed. -/
theorem badKeyEngineIsUselessUntilReset : Obligations.BadKeyEngineIsUselessUntilReset := by
  intro s wb rounds kbl key hs hl hwb hrounds hkbl hkey hbad
  have hc := configLegal_iff.mpr ⟨hwb, hrounds, hkbl, hkey⟩
  obtain ⟨t, ht, hst⟩ := exec_init_ok hl hc
  have hlife : t.life = .configured := hst.config.life
  refine ⟨t, ht, hst.outbox, fun packets => ?_⟩
  obtain ⟨t', ht', htt'⟩ := runSteps_sending (exec_keeps_inv hs.persistent ht) hlife packets
  have hlife' : t'.life = .configured := htt'.life.trans hlife
  have hfails : ¬t'.keyPasses := by
    rw [(hst.config.trans htt').keyPasses, construct_keyPasses_iff hs.persistent.params hc]
    exact not_and_or.mpr hbad
  exact ⟨t', ht', hlife', fun i hi => ⟨_, exec_badKey hi hlife' hfails, raise_rejected t' _⟩⟩

end Sys2Proof.Machine

/-! ### Words: the Word Abstraction and the rounds it makes reversible (rules R95 to R107, R138, R152) -/

namespace Sys2Proof.Machine

section Words

variable {w : Width} {x y n : Word}

/-! #### Arithmetic (rules R98, R99, R100) -/

theorem addW_toNat (w : Width) (x y : Word) : (addW w x y).toNat = Ref.add w.bits x.toNat y.toNat := by
  rw [addW, toNat_reg, BitVec.toNat_add, toNat_low, toNat_low, ← Nat.add_mod, Ref.add]

theorem mulW_toNat (w : Width) (x y : Word) : (mulW w x y).toNat = Ref.mul w.bits x.toNat y.toNat := by
  rw [mulW, toNat_reg, BitVec.toNat_mul, toNat_low, toNat_low, ← Nat.mul_mod, Ref.mul]

/-- A difference below zero wraps once. -/
theorem subW_toNat (hx : IsWord w x) (hy : IsWord w y) : (subW w x y).toNat = Ref.sub w.bits x.toNat y.toNat := by
  rw [subW, toNat_reg, Ref.sub, ← toNat_low_of_isWord hx, ← toNat_low_of_isWord hy]
  split
  case isTrue h => exact BitVec.toNat_sub_of_le h
  case isFalse h =>
    rw [BitVec.toNat_sub_of_lt (Nat.lt_of_not_le h)]
    have := (low w y).isLt
    omega

theorem subW_addW (hx : IsWord w x) (y : Word) : subW w (addW w x y) y = x :=
  eq_of_low_eq (isWord_subW ..) hx (by rw [low_subW, low_addW, BitVec.add_sub_cancel])

theorem addW_subW (hx : IsWord w x) (y : Word) : addW w (subW w x y) y = x :=
  eq_of_low_eq (isWord_addW ..) hx (by rw [low_addW, low_subW, BitVec.sub_add_cancel])

theorem addW_comm (w : Width) (x y : Word) : addW w x y = addW w y x := congrArg (reg w) (BitVec.add_comm ..)

theorem addW_assoc (w : Width) (x y z : Word) : addW w (addW w x y) z = addW w x (addW w y z) :=
  eq_of_low_eq (isWord_addW ..) (isWord_addW ..) (by simp only [low_addW, BitVec.add_assoc])

/-! #### Exclusive or (rule R103) -/

theorem xorW_toNat (hx : IsWord w x) (hy : IsWord w y) : (xorW w x y).toNat = Ref.xor x.toNat y.toNat := by
  rw [xorW, toNat_reg, BitVec.toNat_xor, toNat_low_of_isWord hx, toNat_low_of_isWord hy, Ref.xor]

theorem xorW_xorW (hx : IsWord w x) (y : Word) : xorW w (xorW w x y) y = x :=
  eq_of_low_eq (isWord_xorW ..) hx (by rw [low_xorW, low_xorW, BitVec.xor_assoc, BitVec.xor_self, BitVec.xor_zero])

theorem xorW_self (w : Width) (x : Word) : xorW w x x = 0 :=
  (congrArg (reg w) BitVec.xor_self).trans (BitVec.setWidth_zero ..)

theorem xorW_comm (w : Width) (x y : Word) : xorW w x y = xorW w y x := congrArg (reg w) (BitVec.xor_comm ..)

theorem xorW_assoc (w : Width) (x y z : Word) : xorW w (xorW w x y) z = xorW w x (xorW w y z) :=
  eq_of_low_eq (isWord_xorW ..) (isWord_xorW ..) (by simp only [low_xorW, BitVec.xor_assoc])

/-! #### Rotations (rules R101, R102) -/

/-- The two parts of a rotated number have no bit in common, so joining them adds them. -/
theorem rotated_or_eq_add {m s v : Nat} (hs : s ≤ m) (hv : v < 2 ^ m) :
    v * 2 ^ s % 2 ^ m ||| v / 2 ^ (m - s) = v * 2 ^ s % 2 ^ m + v / 2 ^ (m - s) := by
  have hhigh : v * 2 ^ s % 2 ^ m = 2 ^ s * (v % 2 ^ (m - s)) := by
    rw [← Nat.mul_mod_mul_left, ← pow_add, Nat.add_sub_cancel' hs, Nat.mul_comm]
  have hlow : v / 2 ^ (m - s) < 2 ^ s :=
    Nat.div_lt_of_lt_mul (by rwa [← pow_add, Nat.sub_add_cancel hs])
  rw [hhigh, Nat.two_pow_add_eq_or_of_lt hlow]

theorem rotlW_toNat (hx : IsWord w x) (n : Word) : (rotlW w x n).toNat = Ref.rotl w.bits x.toNat n.toNat := by
  have hs := Nat.mod_lt n.toNat w.bits_pos
  rw [rotlW, toNat_reg, BitVec.toNat_rotateLeft, Nat.mod_mod, Nat.shiftLeft_eq, Nat.shiftRight_eq_div_pow,
    toNat_low_of_isWord hx, rotated_or_eq_add hs.le hx, Ref.rotl]
  split
  case isTrue h => simp [h, Nat.mod_eq_of_lt hx, Nat.div_eq_of_lt hx]
  case isFalse => rfl

theorem rotrW_toNat (hx : IsWord w x) (n : Word) : (rotrW w x n).toNat = Ref.rotr w.bits x.toNat n.toNat := by
  have hs := Nat.mod_lt n.toNat w.bits_pos
  have hor := rotated_or_eq_add (Nat.sub_le w.bits (n.toNat % w.bits)) hx
  rw [Nat.sub_sub_self hs.le] at hor
  rw [rotrW, toNat_reg, BitVec.toNat_rotateRight, Nat.mod_mod, Nat.shiftLeft_eq, Nat.shiftRight_eq_div_pow,
    toNat_low_of_isWord hx, Nat.or_comm, hor, Nat.add_comm, Ref.rotr]
  split
  case isTrue h => simp [h]
  case isFalse => rfl

theorem rotrW_rotlW (hx : IsWord w x) (n : Word) : rotrW w (rotlW w x n) n = x :=
  eq_of_low_eq (isWord_rotrW ..) hx (by rw [low_rotrW, low_rotlW, rotateRight_rotateLeft])

theorem rotlW_rotrW (hx : IsWord w x) (n : Word) : rotlW w (rotrW w x n) n = x :=
  eq_of_low_eq (isWord_rotlW ..) hx (by rw [low_rotlW, low_rotrW, rotateLeft_rotateRight])

/-- Bit `b` of a word rotated right is the bit `n` places above, around the word. -/
theorem testBit_rotrW (hx : IsWord w x) (n : Word) {b : Nat} (hb : b < w.bits) :
    (rotrW w x n).toNat.testBit b = x.toNat.testBit ((b + n.toNat) % w.bits) := by
  have hs := Nat.mod_lt n.toNat w.bits_pos
  rw [rotrW, toNat_reg, ← BitVec.getLsbD, BitVec.getLsbD_rotateRight, Nat.mod_mod, BitVec.getLsbD, BitVec.getLsbD,
    toNat_low_of_isWord hx, Nat.add_mod_eq_ite, Nat.mod_eq_of_lt hb]
  by_cases h : b < w.bits - n.toNat % w.bits
  · rw [if_neg (by omega), Nat.add_comm b]
    simp [h]
  · rw [if_pos (by omega), show b + n.toNat % w.bits - w.bits = b - (w.bits - n.toNat % w.bits) by omega]
    simp [h, hb]

/-- Bit `b` of a word rotated left goes `n` places up, around the word: rotating right brings it back from there. -/
theorem testBit_rotlW (hx : IsWord w x) (n : Word) {b : Nat} (hb : b < w.bits) :
    (rotlW w x n).toNat.testBit ((b + n.toNat) % w.bits) = x.toNat.testBit b := by
  rw [← testBit_rotrW (isWord_rotlW ..) n hb, rotrW_rotlW hx]

/-- Over natural numbers, rotating right is rotating left by what is left of the word. -/
theorem Ref.rotr_eq_rotl {W : Nat} (hW : 0 < W) (v n : Nat) : Ref.rotr W v n = Ref.rotl W v (W - n % W) := by
  have hs := Nat.mod_lt n hW
  rw [Ref.rotr, Ref.rotl]
  split
  case isTrue h => rw [h, Nat.sub_zero, if_pos (Nat.mod_self W)]
  case isFalse h =>
    have hmod : (W - n % W) % W = W - n % W := Nat.mod_eq_of_lt (by omega)
    rw [hmod, if_neg (by omega), Nat.sub_sub_self hs.le, Nat.add_comm]

theorem rotrW_eq_rotlW (hx : IsWord w x) (n : Word) :
    rotrW w x n = rotlW w x (BitVec.ofNat 64 (w.bits - n.toNat % w.bits)) := by
  have hamount : (BitVec.ofNat 64 (w.bits - n.toNat % w.bits)).toNat = w.bits - n.toNat % w.bits :=
    Nat.mod_eq_of_lt (by have := w.bits_le; omega)
  apply BitVec.eq_of_toNat_eq
  rw [rotrW_toNat hx, rotlW_toNat hx, hamount, Ref.rotr_eq_rotl w.bits_pos]

/-! #### The little-endian codec (rules R96, R97) -/

/-- The number of the `u` bytes at an offset, as the reference sums it up. -/
theorem leNat_readBytes (s : List Byte) {o u : Nat} (h : o + u ≤ s.length) :
    leNat (readBytes s o u) = Ref.leDec u (s.map BitVec.toNat) o := by
  induction u with
  | zero => rfl
  | succ u ih =>
    have hlast : readBytes s o (u + 1) = readBytes s o u ++ [s[o + u]] := by
      simp [readBytes, List.take_succ_eq_append_getElem (show u < (s.drop o).length by simp; omega)]
    have hlength : (readBytes s o u).length = u := readBytes_length_of_le (by omega)
    rw [hlast, leNat_append, ih (by omega), hlength]
    simp [Ref.leDec, leNat, List.range_succ, Nat.mul_comm, show o + u < s.length from h]

/-- `u` bytes decode to their little-endian sum (rule R96). -/
theorem leDec_toNat_eq_sum {s : List Byte} (h : s.length = w.bytes) :
    (leDec s).toNat = Ref.leDec w.bytes (s.map BitVec.toNat) 0 := by
  rw [leDec_toNat (h ▸ w.bytes_le), ← leNat_readBytes s (by omega), readBytes, List.drop_zero, ← h,
    List.take_length]

theorem leEnc_leDec {s : List Byte} (h : s.length = w.bytes) : leEnc w (leDec s) = s := by
  apply List.ext_getElem (by rw [leEnc_length, h])
  intro n hn hn'
  apply BitVec.eq_of_toNat_eq
  rw [leEnc_getElem, leDec_toNat (h ▸ w.bytes_le), pow_mul]
  exact leNat_byte s n hn'

theorem leEnc_map_toNat (w : Width) (x : Word) : (leEnc w x).map BitVec.toNat = Ref.leEnc w.bytes x.toNat := by
  simp [leEnc, Ref.leEnc, Nat.shiftRight_eq_div_pow]

/-- The first `m` bytes of a register, least significant first, hold its number modulo `2^(8m)`. -/
theorem leNat_extract (x : Word) (m : Nat) :
    leNat ((List.range m).map fun n => x.extractLsb' (8 * n) 8) = x.toNat % 2 ^ (8 * m) := by
  induction m with
  | zero => simp [leNat, Nat.mod_one]
  | succ m ih =>
    rw [List.range_succ, List.map_append, leNat_append, ih, Nat.mul_succ, pow_add, Nat.mod_mul]
    simp [leNat, Nat.shiftRight_eq_div_pow, pow_mul]

theorem leDec_leEnc (hx : IsWord w x) : leDec (leEnc w x) = x := by
  apply BitVec.eq_of_toNat_eq
  rw [leDec_toNat (by simpa using w.bytes_le), leEnc, leNat_extract, ← w.bits_eq, Nat.mod_eq_of_lt hx]

/-! #### The lines of a round, and the rounds (rules R107, R138, R152) -/

/-- A decryption line takes the key word, the rotation and the mask off in the reverse order. -/
theorem decHalf_encHalf (hx : IsWord w x) (y k : Word) : decHalf w (encHalf w x y k) y k = x := by
  rw [decHalf, encHalf, subW_addW (isWord_rotlW ..), rotrW_rotlW (isWord_xorW ..), xorW_xorW hx]

theorem encHalf_decHalf (hx : IsWord w x) (y k : Word) : encHalf w (decHalf w x y k) y k = x := by
  rw [encHalf, decHalf, xorW_xorW (isWord_rotrW ..), rotlW_rotrW (isWord_subW ..), addW_subW hx]

variable {s : Scratch}

/-- `DecRound` undoes the second line first, whose mask `A` stands as the first line left it; of what the rounds wrote only
the round number stays. -/
theorem decRound_encRound (ha : IsWord w s.a) (hb : IsWord w s.b) (r : Nat) :
    (s.encRound w r).decRound w r = { s with r := r } := by
  have hb' : ((s.encRound w r).decRound w r).b = s.b := decHalf_encHalf hb ..
  have ha' : ((s.encRound w r).decRound w r).a = s.a := by
    rw [Scratch.decRound_a, hb']
    exact decHalf_encHalf ha ..
  calc (s.encRound w r).decRound w r
      = { s with a := ((s.encRound w r).decRound w r).a, b := ((s.encRound w r).decRound w r).b, r := r } := rfl
    _ = { s with r := r } := by rw [ha', hb']

/-- `EncRound` undoes the second line of `DecRound` first, whose mask `B` stands as the first line left it. -/
theorem encRound_decRound (ha : IsWord w s.a) (hb : IsWord w s.b) (r : Nat) :
    (s.decRound w r).encRound w r = { s with r := r } := by
  have ha' : ((s.decRound w r).encRound w r).a = s.a := encHalf_decHalf ha ..
  have hb' : ((s.decRound w r).encRound w r).b = s.b := by
    rw [Scratch.encRound_b, ha']
    exact encHalf_decHalf hb ..
  calc (s.decRound w r).encRound w r
      = { s with a := ((s.decRound w r).encRound w r).a, b := ((s.decRound w r).encRound w r).b, r := r } := rfl
    _ = { s with r := r } := by rw [ha', hb']

end Words

/-- Settles O26, operation by operation. -/
theorem arithmeticWrapsModuloTheWordSize : Obligations.ArithmeticWrapsModuloTheWordSize :=
  fun w x y z hx hy _ => ⟨addW_toNat w x y, subW_toNat hx hy, mulW_toNat w x y, subW_addW hx y, addW_subW hx y,
    addW_comm w x y, addW_assoc w x y z⟩

/-- Settles O27: the values by the sum of the two parts, the bits by those of `ROTR_W`, which undoes `ROTL_W`. -/
theorem rotationsMoveEveryBitAround : Obligations.RotationsMoveEveryBitAround :=
  fun _ _ n hx => ⟨rotlW_toNat hx n, rotrW_toNat hx n, fun _ => testBit_rotlW hx n, fun _ => testBit_rotrW hx n,
    rotrW_rotlW hx n, rotlW_rotrW hx n, rotrW_eq_rotlW hx n⟩

/-- Settles O28: on words the register holds the exclusive or of the two numbers. -/
theorem xorIsBitwise : Obligations.XorIsBitwise := by
  intro w x y z hx hy _
  refine ⟨fun b => ?_, xorW_xorW hx y, xorW_self w x, xorW_comm w x y, xorW_assoc w x y z⟩
  rw [xorW_toNat hx hy]
  exact Nat.testBit_xor ..

/-- Settles O29: both directions compare the bytes with the digits of the number to the base 256. -/
theorem wordCodecIsExact : Obligations.WordCodecIsExact :=
  fun w => ⟨fun _ hs => ⟨leDec_toNat_eq_sum hs, leEnc_leDec hs⟩,
    fun x hx => ⟨leEnc_length w x, leEnc_map_toNat w x, leDec_leEnc hx⟩⟩

/-- Settles O31: the nested operations are the two lines of `decHalf_encHalf`. -/
theorem halfRoundIsUndone : Obligations.HalfRoundIsUndone := fun _ _ y k hx _ _ => decHalf_encHalf hx y k

/-- Settles O24: each round after the other leaves both words as they were. -/
theorem roundsUndoEachOther : Obligations.RoundsUndoEachOther := by
  intro w r x ha hb
  rw [decRound_encRound ha hb, encRound_decRound ha hb]
  exact ⟨rfl, rfl, rfl, rfl⟩

end Sys2Proof.Machine

/-! ### The key schedule: its three loops, `KSCHED`, and the phases of a command (rules R117 to R125) -/

namespace Sys2Proof.Machine

section KeyScheduleValues

variable {w : Width} {g : KeyInputs} {x : Scratch}

/-! #### `BuildL` (rule R117) -/

theorem keyWord_of_emptyKey (h : g.klen = 0) (n : Nat) : keyWord g n = 0 := if_pos h

/-- A word of `L` is the number of its `u` key bytes. -/
theorem keyWord_toNat (hkey : g.key.length = g.klen) (h0 : g.klen ≠ 0) {n : Nat} (hn : n < g.klen / g.w.bytes) :
    (keyWord g n).toNat = Ref.leDec g.w.bytes (g.key.map BitVec.toNat) (n * g.w.bytes) := by
  have hinside : n * g.w.bytes + g.w.bytes ≤ g.key.length := by
    rw [hkey, ← Nat.succ_mul]
    exact (Nat.mul_le_mul_right _ hn).trans (Nat.div_mul_le_self ..)
  have hlength : (readBytes g.key (n * g.w.bytes) g.w.bytes).length ≤ 8 :=
    (readBytes_length_of_le hinside).trans_le g.w.bytes_le
  rw [keyWord, if_neg h0, leDec_toNat hlength, leNat_readBytes _ hinside]

/-- A key that is not empty has a whole number of words, at least one. -/
theorem KeyInputs.c_of_key (h0 : g.klen ≠ 0) (hmod : g.klen % g.w.bytes = 0) : g.c = g.klen / g.w.bytes := by
  have hdvd := Nat.dvd_of_mod_eq_zero hmod
  exact max_eq_right (Nat.div_pos (Nat.le_of_dvd (Nat.pos_of_ne_zero h0) hdvd) g.w.bytes_pos)

theorem KeyInputs.c_of_emptyKey (h : g.klen = 0) : g.c = 1 := by simp [KeyInputs.c, h]

/-! #### `InitS` (rule R118) -/

theorem isWord_magicP (w : Width) : IsWord w (magicP w) := by cases w <;> decide

theorem wordOfNat_toNat (w : Width) (n : Nat) : (wordOfNat w n).toNat = n % 2 ^ w.bits := by
  rw [wordOfNat, toNat_reg, BitVec.toNat_ofNat]

theorem initWord_toNat (g : KeyInputs) (n : Nat) :
    (initWord g n).toNat =
      Ref.add g.w.bits (Ref.mul g.w.bits (n % 2 ^ g.w.bits) (magicQ g.q64 g.w).toNat) (magicP g.w).toNat := by
  rw [initWord, addW_toNat, mulW_toNat, wordOfNat_toNat]

/-- The architectural bits of a word of `InitS`. -/
theorem low_initWord (g : KeyInputs) (n : Nat) :
    low g.w (initWord g n) = BitVec.ofNat g.w.bits n * low g.w (magicQ g.q64 g.w) + low g.w (magicP g.w) := by
  rw [initWord, low_addW, low_mulW, wordOfNat, low_reg]

theorem initWord_zero (g : KeyInputs) : initWord g 0 = magicP g.w :=
  eq_of_low_eq (isWord_initWord g 0) (isWord_magicP g.w) (by rw [low_initWord]; simp)

/-- The words of `InitS` go up by `Q`. -/
theorem initWord_succ (g : KeyInputs) (n : Nat) : initWord g (n + 1) = addW g.w (initWord g n) (magicQ g.q64 g.w) := by
  apply eq_of_low_eq (isWord_initWord g _) (isWord_addW ..)
  rw [low_addW, low_initWord, low_initWord, BitVec.ofNat_add, BitVec.add_mul,
    BitVec.one_mul]
  exact add_right_comm ..

/-! #### `MixStep` (rule R120) -/

/-- A word of a table written at one place. -/
theorem readTable_writeTable {table : List Word} {n : Nat} (hn : n < table.length) (m : Nat) (v : Word) :
    readTable (writeTable table m v) n = if n = m then v else readTable table n := by
  simp only [readTable, writeTable, List.getD_eq_getElem?_getD]
  split
  · next h => subst h; rw [List.getElem?_set_self hn]; rfl
  · next h => rw [List.getElem?_set_ne (Ne.symm h)]

theorem readTable_map_range (f : Nat → Word) {m n : Nat} (h : n < m) : readTable ((List.range m).map f) n = f n := by
  simp [readTable, h]

/-- The first line of rule R120. -/
theorem mixA_toNat (w : Width) (si ka kb : Word) :
    (mixA w si ka kb).toNat =
      Ref.rotl w.bits (Ref.add w.bits (Ref.add w.bits si.toNat ka.toNat) kb.toNat) 3 := by
  rw [mixA, rotlW_toNat (isWord_addW ..), addW_toNat, addW_toNat]
  rfl

/-- The second line of rule R120. -/
theorem mixB_toNat (w : Width) (lj ka' kb : Word) :
    (mixB w lj ka' kb).toNat =
      Ref.rotl w.bits (Ref.add w.bits (Ref.add w.bits lj.toNat ka'.toNat) kb.toNat)
        (Ref.add w.bits ka'.toNat kb.toNat) := by
  rw [mixB, rotlW_toNat (isWord_addW ..), addW_toNat, addW_toNat, addW_toNat]

/-! #### The mixing loop beside the reference (rules R119 to R122) -/

/-- The reference's variables hold the numbers of the machine's registers, each table inside its length. -/
structure MixMatches (g : KeyInputs) (x : Scratch) (m : Ref.Mix) : Prop where
  A : m.A = x.ka.toNat
  B : m.B = x.kb.toNat
  i : m.i = x.i
  j : m.j = x.j
  S : ∀ n, n < g.t → m.S n = (readTable x.S n).toNat
  L : ∀ n, n < g.c → m.L n = (readTable x.L n).toNat

/-- One iteration of both. -/
theorem mixMatches_mixStep {m : Ref.Mix} (hx : MixShape g x) (h : MixMatches g x m) :
    MixMatches g (x.mixStep g) (Ref.mixStep g.w.bits g.t g.c m) := by
  have hA : (Ref.mixStep g.w.bits g.t g.c m).A = (x.mixStep g).ka.toNat := by
    rw [Scratch.mixStep_ka, mixA_toNat, ← h.S x.i hx.i, ← h.A, ← h.B, ← h.i]
    rfl
  have hB : (Ref.mixStep g.w.bits g.t g.c m).B = (x.mixStep g).kb.toNat := by
    rw [Scratch.mixStep_kb, mixB_toNat, ← h.L x.j hx.j, ← hA, ← h.B, ← h.j]
    rfl
  refine ⟨hA, hB, congrArg (fun i => (i + 1) % g.t) h.i, congrArg (fun j => (j + 1) % g.c) h.j, fun n hn => ?_,
    fun n hn => ?_⟩
  · rw [Scratch.mixStep_S, readTable_writeTable (hx.S ▸ hn), apply_ite BitVec.toNat, ← hA, ← h.S n hn, ← h.i]
    exact Function.update_apply ..
  · rw [Scratch.mixStep_L, readTable_writeTable (hx.L ▸ hn), apply_ite BitVec.toNat, ← hB, ← h.L n hn, ← h.j]
    exact Function.update_apply ..

theorem mixMatches_iterate {m : Ref.Mix} (hx : MixShape g x) (h : MixMatches g x m) (n : Nat) :
    MixMatches g ((Scratch.mixStep g)^[n] x) ((Ref.mixStep g.w.bits g.t g.c)^[n] m) := by
  induction n with
  | zero => exact h
  | succ n ih =>
    rw [Function.iterate_succ_apply', Function.iterate_succ_apply']
    exact mixMatches_mixStep (mixShape_iterate hx n) ih

/-- What the reference's mixing loop starts from (rules R117 to R119). -/
def KeyInputs.refStart (g : KeyInputs) : Ref.Mix :=
  { A := 0, B := 0, i := 0, j := 0
    S := fun n => (initWord g n).toNat
    L := fun n => if g.klen = 0 then 0 else Ref.leDec g.w.bytes (g.key.map BitVec.toNat) (n * g.w.bytes) }

/-- The reference has the machine's constants (rule R104). -/
theorem magicP_toNat (w : Width) : (magicP w).toNat = Ref.magicP w.bytes := by cases w <;> rfl

theorem magicQ_toNat (q64 : Word) (w : Width) : (magicQ q64 w).toNat = Ref.magicQ q64.toNat w.bytes := by
  cases w <;> rfl

theorem refKeySchedule_eq (hkey : g.key.length = g.klen) :
    Ref.keySchedule g.w.bytes g.rounds g.q64.toNat (g.key.map BitVec.toNat) =
      ((Ref.mixStep g.w.bits g.t g.c)^[g.nMix] g.refStart).S := by
  simp only [Ref.keySchedule, KeyInputs.refStart, initWord_toNat, List.length_map, hkey, ← Width.bits_eq, magicP_toNat,
    magicQ_toNat]
  rfl

theorem mixMatches_start (hkey : g.key.length = g.klen) (hmod : g.klen % g.w.bytes = 0) (x : Scratch) :
    MixMatches g ((x.buildL g).initS g).mixInit g.refStart := by
  refine ⟨rfl, rfl, rfl, rfl, fun n hn => ?_, fun n hn => ?_⟩
  · rw [Scratch.mixInit_S, Scratch.initS_S, readTable_map_range _ hn]
    rfl
  · rw [Scratch.mixInit_L, Scratch.initS_L, Scratch.buildL_L, readTable_map_range _ hn, KeyInputs.refStart]
    split
    · next h0 => rw [keyWord_of_emptyKey h0]; rfl
    · next h0 => exact (keyWord_toNat hkey h0 (KeyInputs.c_of_key h0 hmod ▸ hn)).symm

/-- The key schedule table holds the words that the pseudocode computes (rule R122). -/
theorem keyTable_toNat (hkey : g.key.length = g.klen) (hmod : g.klen % g.w.bytes = 0) {n : Nat} (hn : n < g.t) :
    (readTable (keyTable g) n).toNat =
      Ref.keySchedule g.w.bytes g.rounds g.q64.toNat (g.key.map BitVec.toNat) n := by
  rw [refKeySchedule_eq hkey]
  exact ((mixMatches_iterate (mixShape_start g _) (mixMatches_start hkey hmod Scratch.reset) g.nMix).S n hn).symm

/-- The payload of `KSCHED` is the pseudocode's table, word by word and byte by byte (rules R72, R97). -/
theorem encodeTable_toNat (w : Width) (table : List Word) :
    (encodeTable w table).map BitVec.toNat =
      (List.range table.length).flatMap fun n => Ref.leEnc w.bytes (readTable table n).toNat := by
  have htable : table = (List.range table.length).map (readTable table) :=
    List.ext_getElem (by simp) fun n hn _ => by simp [readTable, hn]
  conv_lhs => rw [encodeTable, htable]
  simp only [List.map_flatMap, List.flatMap_map, leEnc_map_toNat]

theorem encodeTable_keyTable_toNat (hkey : g.key.length = g.klen) (hmod : g.klen % g.w.bytes = 0) :
    (encodeTable g.w (keyTable g)).map BitVec.toNat =
      Ref.tablePayload g.w.bytes g.rounds
        (Ref.keySchedule g.w.bytes g.rounds g.q64.toNat (g.key.map BitVec.toNat)) := by
  rw [encodeTable_toNat, keyTable_length, Ref.tablePayload]
  exact List.flatMap_congr fun n hn => by rw [keyTable_toNat hkey hmod (List.mem_range.mp hn)]

/-- What a ready engine's commands read, in the state's own terms, and that its key is a whole number of words. -/
theorem Ready.keyInputs {s : State} (h : Ready s) :
    ∃ g, s.keyInputs? = some g ∧ g.key.length = g.klen ∧ g.klen % g.w.bytes = 0 ∧ g.w.bytes = s.wordBytes.toNat ∧
      g.rounds = s.rounds.toNat ∧
      Ref.keySchedule g.w.bytes g.rounds g.q64.toNat (g.key.map BitVec.toNat) = s.refTable := by
  have hconfig := h.inv.persistent.config h.life
  obtain ⟨g, hg⟩ := keyInputs?_of_isSome hconfig.width
  obtain ⟨hw, hr, hl, hk, hq⟩ := keyInputs?_eq hg
  refine ⟨g, hg, by rw [hk, hl, hconfig.key], by rw [hl, ← hw, h.words], hw.symm, hr, ?_⟩
  rw [State.refTable, State.keyNat, hw, hr, hk, hq]

theorem Ready.keyPasses {s : State} (h : Ready s) : s.keyPasses := keyPasses_iff.mpr ⟨h.lengths, h.words⟩

end KeyScheduleValues

/-- Settles O19: `L` has `c` words, one where the key is empty, and each is `keyWord`. -/
theorem expandedKeyIsTheKeyInWords : Obligations.ExpandedKeyIsTheKeyInWords := by
  intro g x hkey hmod
  refine ⟨fun h0 => ?_, fun h0 => ⟨?_, fun n hn => ?_⟩, rfl⟩
  · simp [KeyInputs.c_of_emptyKey h0, keyWord_of_emptyKey h0]
  · simp [KeyInputs.c_of_key h0 hmod]
  · change (readTable (x.buildL g).L n).toNat = _
    rw [Scratch.buildL_L, readTable_map_range _ (KeyInputs.c_of_key h0 hmod ▸ hn), keyWord_toNat hkey h0 hn]

/-- Settles O20: word `n` is `initWord`, which starts at `P` and goes up by `Q`. -/
theorem initialTableIsAnArithmeticProgression : Obligations.InitialTableIsAnArithmeticProgression := by
  intro g x
  have hword : ∀ n, n < 2 * (g.rounds + 1) → (x.initS g).S.getD n 0 = initWord g n :=
    fun n hn => readTable_map_range (initWord g) hn
  refine ⟨by simp [KeyInputs.t], fun n hn => ?_, ?_, fun n hn => ?_, rfl⟩
  · rw [hword n hn, initWord_toNat]
  · rw [hword 0 g.t_pos, initWord_zero]
  · rw [hword (n + 1) hn, hword n (by omega), initWord_succ]

/-- Settles O21: the two lines are `mixA` and `mixB`, each written at the place that was read. -/
theorem mixStepFollowsItsRule : Obligations.MixStepFollowsItsRule := by
  intro g x _ _ _ _ _ _
  exact ⟨mixA_toNat .., mixB_toNat .., fun n hn => readTable_writeTable hn .., fun n hn => readTable_writeTable hn ..,
    List.length_set .., List.length_set .., rfl, rfl, rfl, rfl, rfl, rfl, rfl⟩

/-- Settles O13: the machine's mixing loop runs beside the reference's, so the table that is encoded is the pseudocode's. -/
theorem kschedFollowsItsPseudocode : Obligations.KschedFollowsItsPseudocode := by
  intro s
  refine ⟨fun hl => ⟨_, exec_unconfigured rfl hl, raise_rejected s _⟩,
    fun hl hbad => ⟨_, exec_badKey rfl hl ((keyTest_fails_iff s).mp hbad), raise_rejected s _⟩, fun hready => ?_⟩
  obtain ⟨g, hg, hkey, hmod, hw, hr, htable⟩ := hready.keyInputs
  have hexec : exec .ksched s = .next ((s.keepTable (keyTable g)).respond .ok (g.payload .ksched)) :=
    exec_use_ok rfl hready.inv.persistent.cache hready.life hready.keyPasses rfl hg
  refine ⟨_, g.payload .ksched, hexec, keepTable_respond_answered .., ?_⟩
  rw [← htable, ← hw, ← hr]
  exact encodeTable_keyTable_toNat hkey hmod

end Sys2Proof.Machine

namespace Sys2Proof.Machine

/-! #### The phases of a command (rules R125, R142, R158)

A tick either goes on inside the command, to `s.inPhase p x`, or answers and ends it. -/

section PhaseOrder

variable {s t : State} {i : Instr} {g : KeyInputs} {x : Scratch}

/-- What is asked of one tick of the command `i`, from `s` to `t`. -/
structure TickInOrder (i : Instr) (s t : State) : Prop where
  phase : t.phase ∈ s.phasesAfter i
  rounds : RoundsCounted s t
  ends : t.phase = .idle → s.phase ≠ .idle → ∃ response, t.outbox = s.outbox ++ [response]
  within : t.phase ≠ .idle → t.outbox = s.outbox

/-- The phases whose tick sets the number of the round that follows (rules R142, R158). -/
def countingPhases : List Phase := [.encPre, .encRnd, .decRnd]

/-- Outside those phases, a tick can only start `DEC_RND`, with `r = R` (rule R158). -/
theorem roundsCounted_outside (hs : s.phase ∉ countingPhases)
    (hr : t.phase = .decRnd → t.scratch.r = s.rounds.toNat) : RoundsCounted s t := by
  obtain ⟨hpre, henc, hdec⟩ : s.phase ≠ .encPre ∧ s.phase ≠ .encRnd ∧ s.phase ≠ .decRnd := by
    simpa [countingPhases] using hs
  exact ⟨(absurd · hpre), (absurd · henc), (absurd · henc), fun _ => hr, (absurd · hdec), (absurd · hdec)⟩

/-- A tick that stays inside the command gives no response. -/
theorem tickInOrder_inPhase {p : Phase} (hidle : p ≠ .idle) (hp : p ∈ s.phasesAfter i)
    (hr : RoundsCounted s (s.inPhase p x)) : TickInOrder i s (s.inPhase p x) :=
  ⟨hp, hr, fun h => absurd h hidle, fun _ => rfl⟩

/-- `CHECK` and `OUT` may end the command, with a response. -/
theorem tickInOrder_answer {response : Packet} (hs : s.phase = .check ∨ s.phase = .out)
    (hmem : .idle ∈ s.phasesAfter i) (ht : t.phase = .idle) (hout : t.outbox = s.outbox ++ [response]) :
    TickInOrder i s t := by
  have hrounds : RoundsCounted s t := by
    rcases hs with hs | hs <;> exact roundsCounted_outside (by rw [hs]; decide) (by simp [ht])
  exact ⟨ht ▸ hmem, hrounds, fun _ _ => ⟨response, hout⟩, fun h => absurd ht h⟩

/-- After the key schedule a use goes on to the phase its rule names, `DEC_RND` with `r = R` and only where `R` is not 0. -/
theorem afterSchedule_cases (hi : isUse i) (p : Phase) (x : Scratch) :
    ∃ q y, (s.inPhase p x).afterSchedule g i = s.inPhase q y ∧ q ∈ phasesAfterSchedule g.rounds i ∧ q ≠ .idle ∧
      (q = .decRnd → y.r = g.rounds) := by
  cases i with
  | init wb rounds kbl key => cases hi
  | ksched => exact ⟨.out, x, rfl, List.mem_singleton_self _, by decide, nofun⟩
  | encrypt block => exact ⟨.encPre, x, rfl, List.mem_singleton_self _, by decide, nofun⟩
  | decrypt block =>
    simp only [State.afterSchedule, phasesAfterSchedule]
    split
    · exact ⟨.decPost, x, rfl, List.mem_singleton_self _, by decide, nofun⟩
    · exact ⟨.decRnd, x.atRound g.rounds, rfl, List.mem_singleton_self _, by decide, fun _ => rfl⟩

/-- Going on after the key schedule is in order wherever the order allows what follows the schedule. -/
theorem tickInOrder_afterSchedule (hi : isUse i) (hr : g.rounds = s.rounds.toNat) (hs : s.phase ∉ countingPhases)
    (hmem : ∀ q ∈ phasesAfterSchedule s.rounds.toNat i, q ∈ s.phasesAfter i) (p : Phase) (x : Scratch) :
    TickInOrder i s ((s.inPhase p x).afterSchedule g i) := by
  obtain ⟨q, y, heq, hq, hidle, hround⟩ := afterSchedule_cases (s := s) (g := g) hi p x
  rw [heq]
  exact tickInOrder_inPhase hidle (hmem q (hr ▸ hq)) (roundsCounted_outside hs (hr ▸ hround))

/- `CHECK`. -/

theorem phasesAfter_check (hs : s.phase = .check) : s.phasesAfter i = s.phasesAfterCheck i := by
  simp [State.phasesAfter, hs]

theorem startCommand_of_check (hs : s.phase = .check) : s.startCommand = s := inPhase_self hs

theorem tickInOrder_raise (hs : s.phase = .check) (h : ¬(isUse i ∧ Ref.status s (.instr i) = .ok)) (error : Status) :
    TickInOrder i s (s.raise error) :=
  tickInOrder_answer (.inl hs) (by simp [phasesAfter_check hs, State.phasesAfterCheck, h]) rfl rfl

/-- `INIT` answers in `CHECK`, whatever it answers (log 11). -/
theorem tickInOrder_init (hs : s.phase = .check) {wb : BitVec 8} {rounds kbl : BitVec 32} {key : List Byte}
    (ht : s.tick (.init wb rounds kbl key) = .next t) : TickInOrder (.init wb rounds kbl key) s t := by
  have huse : ¬(isUse (.init wb rounds kbl key) ∧ Ref.status s (.instr (.init wb rounds kbl key)) = .ok) := nofun
  have hexec := tick_init wb rounds kbl key s
  rw [startCommand_of_check hs, ht] at hexec
  rcases exec_init_cases wb rounds kbl key s with ⟨error, -, h⟩ | ⟨-, -, h⟩
  · cases hexec.trans h
    exact tickInOrder_raise hs huse error
  · cases hexec.trans h
    exact tickInOrder_answer (.inl hs) (by simp [phasesAfter_check hs, State.phasesAfterCheck, isUse]) rfl rfl

/-- A use whose tests pass ends in the fault of an illegal word size, or enters the key schedule. -/
theorem tick_check_ok (hi : isUse i) (hl : s.life = .configured) (hk : s.keyPasses) (hb : s.operandPasses i)
    (ht : s.startCommand.tick i = .next t) :
    ∃ g, s.keyInputs? = some g ∧ t = s.startCommand.enterSchedule g i (s.loaded g i) := by
  cases hg : s.keyInputs? with
  | some g => exact ⟨g, rfl, Host.Outcome.next.inj (ht.symm.trans (tick_passes hi hl hk hb hg))⟩
  | none =>
    cases i with
    | init wb rounds kbl key => cases hi
    | ksched => simp [State.tick, State.tickCheck, hl, hk, hg] at ht
    | _ block =>
      have hblock : s.blockPasses block := hb
      simp [State.tick, State.tickCheck, hl, hk, hblock, hg] at ht

theorem tickInOrder_check_ok (hi : isUse i) (hs : s.phase = .check) (hok : Ref.status s (.instr i) = .ok)
    (hg : s.keyInputs? = some g) (x : Scratch) : TickInOrder i s (s.startCommand.enterSchedule g i x) := by
  rw [startCommand_eq_inPhase]
  cases hc : s.sCache with
  | none =>
    rw [enterSchedule_uncached hc]
    exact tickInOrder_inPhase (by decide) (by simp [phasesAfter_check hs, State.phasesAfterCheck, hi, hok, hc])
      (roundsCounted_outside (by rw [hs]; decide) nofun)
  | some table =>
    obtain ⟨-, hrounds, -⟩ := keyInputs?_eq hg
    rw [enterSchedule_cached hc]
    exact tickInOrder_afterSchedule hi hrounds (by rw [hs]; decide)
      (by simp [phasesAfter_check hs, State.phasesAfterCheck, hi, hok, hc]) ..

theorem tickInOrder_check (hs : s.phase = .check) (ht : s.tick i = .next t) : TickInOrder i s t := by
  by_cases hi : isUse i
  · have ht' := (startCommand_of_check hs).symm ▸ ht
    have herror : ∀ error, t = s.raise error → ¬Ref.status s (.instr i) = .ok → TickInOrder i s t :=
      fun error h hok => h ▸ tickInOrder_raise hs (fun h => hok h.2) error
    rw [status_use_eq_ok_iff hi] at herror
    cases hl : s.life with
    | unconfigured =>
      exact herror _ (Host.Outcome.next.inj (ht'.symm.trans (tick_unconfigured hi hl))) (by simp [hl])
    | configured =>
      by_cases hk : s.keyPasses
      · by_cases hb : s.operandPasses i
        · obtain ⟨g, hg, rfl⟩ := tick_check_ok hi hl hk hb ht'
          exact tickInOrder_check_ok hi hs ((status_use_eq_ok_iff hi).mpr ⟨hl, hk, hb⟩) hg _
        · exact herror _ (Host.Outcome.next.inj (ht'.symm.trans (tick_badOperand hl hk hb))) (by simp [hb])
      · exact herror _ (Host.Outcome.next.inj (ht'.symm.trans (tick_badKey hi hl hk))) (by simp [hk])
  · cases i with
    | init wb rounds kbl key => exact tickInOrder_init hs ht
    | _ => exact absurd rfl hi

/- The loops and `OUT`. A tick's next phase and scratch state are named, and the order read off. -/

theorem tickLoop_ksL (g : KeyInputs) (i : Instr) (s : State) (x : Scratch) :
    (s.inPhase .ksL x).tickLoop g i = if (x.pushL g).L.length < g.c then s.inPhase .ksL (x.pushL g)
      else s.inPhase .ksS ((x.pushL g).partS g 0) := rfl

theorem tickLoop_ksS (g : KeyInputs) (i : Instr) (s : State) (x : Scratch) :
    (s.inPhase .ksS x).tickLoop g i = if (x.pushS g).S.length < g.t then s.inPhase .ksS (x.pushS g)
      else s.inPhase .ksMix (x.pushS g).mixInit := rfl

theorem tickLoop_ksMix (g : KeyInputs) (i : Instr) (s : State) (x : Scratch) :
    (s.inPhase .ksMix x).tickLoop g i = if x.k + 1 < g.nMix then s.inPhase .ksMix (x.mixStep g)
      else (s.inPhase .ksMix (x.mixStep g)).afterSchedule g i := rfl

theorem tickLoop_encPre (g : KeyInputs) (i : Instr) (s : State) (x : Scratch) :
    (s.inPhase .encPre x).tickLoop g i = if g.rounds = 0 then s.inPhase .out (x.encPre g.w)
      else s.inPhase .encRnd ((x.encPre g.w).atRound 1) := rfl

theorem tickLoop_encRnd (g : KeyInputs) (i : Instr) (s : State) (x : Scratch) :
    (s.inPhase .encRnd x).tickLoop g i =
      if x.r < g.rounds then s.inPhase .encRnd ((x.encRound g.w x.r).atRound (x.r + 1))
      else s.inPhase .out (x.encRound g.w x.r) := rfl

theorem tickLoop_decRnd (g : KeyInputs) (i : Instr) (s : State) (x : Scratch) :
    (s.inPhase .decRnd x).tickLoop g i =
      if 1 < x.r then s.inPhase .decRnd ((x.decRound g.w x.r).atRound (x.r - 1))
      else s.inPhase .decPost (x.decRound g.w x.r) := rfl

theorem tickLoop_decPost (g : KeyInputs) (i : Instr) (s : State) (x : Scratch) :
    (s.inPhase .decPost x).tickLoop g i = s.inPhase .out (x.decPost g.w) := rfl

/-- A tick that neither leaves a counting phase nor starts `DEC_RND` counts no round. -/
theorem tickInOrder_noRounds {p q : Phase} {y : Scratch} (hq : q ∈ (s.inPhase p x).phasesAfter i)
    (hp : p ∉ countingPhases := by decide) (hidle : q ≠ .idle := by decide) (hdec : q ≠ .decRnd := by decide) :
    TickInOrder i (s.inPhase p x) (s.inPhase q y) :=
  tickInOrder_inPhase (s := s.inPhase p x) hidle hq (roundsCounted_outside hp (absurd · hdec))

theorem tickInOrder_ksL (g : KeyInputs) (i : Instr) (s : State) (x : Scratch) :
    TickInOrder i (s.inPhase .ksL x) ((s.inPhase .ksL x).tickLoop g i) := by
  rw [tickLoop_ksL]
  split
  · exact tickInOrder_noRounds (.head _)
  · exact tickInOrder_noRounds (.tail _ (.head _))

theorem tickInOrder_ksS (g : KeyInputs) (i : Instr) (s : State) (x : Scratch) :
    TickInOrder i (s.inPhase .ksS x) ((s.inPhase .ksS x).tickLoop g i) := by
  rw [tickLoop_ksS]
  split
  · exact tickInOrder_noRounds (.head _)
  · exact tickInOrder_noRounds (.tail _ (.head _))

/-- `INIT`, which has no key schedule, would stay in `KS_MIX`. -/
theorem tickInOrder_ksMix (hr : g.rounds = s.rounds.toNat) (i : Instr) (x : Scratch) :
    TickInOrder i (s.inPhase .ksMix x) ((s.inPhase .ksMix x).tickLoop g i) := by
  have hstay : TickInOrder i (s.inPhase .ksMix x) (s.inPhase .ksMix (x.mixStep g)) :=
    tickInOrder_noRounds (.head _)
  rw [tickLoop_ksMix]
  split
  · exact hstay
  · by_cases hi : isUse i
    · exact tickInOrder_afterSchedule (s := s.inPhase .ksMix x) hi hr (by decide : Phase.ksMix ∉ _)
        (fun _ hq => .tail _ hq) .ksMix (x.mixStep g)
    · cases i with
      | init wb rounds kbl key => exact hstay
      | _ => exact absurd rfl hi

theorem tickInOrder_encPre (hr : g.rounds = s.rounds.toNat) (i : Instr) (x : Scratch) :
    TickInOrder i (s.inPhase .encPre x) ((s.inPhase .encPre x).tickLoop g i) := by
  have hafter : (s.inPhase .encPre x).phasesAfter i = if g.rounds = 0 then [.out] else [.encRnd] := by rw [hr]; rfl
  rw [tickLoop_encPre]
  split
  · next h0 =>
    exact tickInOrder_inPhase (s := s.inPhase .encPre x) (by decide) (by simp [hafter, h0])
      ⟨nofun, nofun, nofun, nofun, nofun, nofun⟩
  · next h0 =>
    exact tickInOrder_inPhase (s := s.inPhase .encPre x) (by decide) (by simp [hafter, h0])
      ⟨fun _ _ => rfl, nofun, nofun, nofun, nofun, nofun⟩

/-- Another round follows exactly while `r < R`, and it is round `r + 1` (rule R142). -/
theorem tickInOrder_encRnd (hr : g.rounds = s.rounds.toNat) (i : Instr) (x : Scratch) :
    TickInOrder i (s.inPhase .encRnd x) ((s.inPhase .encRnd x).tickLoop g i) := by
  rw [tickLoop_encRnd]
  split
  · next hmore =>
    exact tickInOrder_inPhase (s := s.inPhase .encRnd x) (by decide) (.head _)
      ⟨nofun, fun _ => iff_of_true rfl (hr ▸ hmore), fun _ _ => rfl, nofun, nofun, nofun⟩
  · next hlast =>
    exact tickInOrder_inPhase (s := s.inPhase .encRnd x) (by decide) (.tail _ (.head _))
      ⟨nofun, fun _ => iff_of_false nofun (hr ▸ hlast), nofun, nofun, nofun, nofun⟩

/-- Another round follows exactly while `1 < r`, and it is round `r - 1` (rule R158). -/
theorem tickInOrder_decRnd (g : KeyInputs) (i : Instr) (s : State) (x : Scratch) :
    TickInOrder i (s.inPhase .decRnd x) ((s.inPhase .decRnd x).tickLoop g i) := by
  rw [tickLoop_decRnd]
  split
  · next hmore =>
    exact tickInOrder_inPhase (s := s.inPhase .decRnd x) (by decide) (.head _)
      ⟨nofun, nofun, nofun, fun h => absurd rfl h, fun _ => iff_of_true rfl hmore, fun _ _ => rfl⟩
  · next hlast =>
    exact tickInOrder_inPhase (s := s.inPhase .decRnd x) (by decide) (.tail _ (.head _))
      ⟨nofun, nofun, nofun, nofun, fun _ => iff_of_false nofun hlast, nofun⟩

theorem tickInOrder_decPost (g : KeyInputs) (i : Instr) (s : State) (x : Scratch) :
    TickInOrder i (s.inPhase .decPost x) ((s.inPhase .decPost x).tickLoop g i) :=
  tickInOrder_noRounds (.head _)

theorem tickInOrder_out (g : KeyInputs) (i : Instr) (s : State) (x : Scratch) :
    TickInOrder i (s.inPhase .out x) ((s.inPhase .out x).tickLoop g i) :=
  tickInOrder_answer (.inr rfl) (.head _) rfl rfl

/-- A tick past `CHECK` is in order, phase by phase. -/
theorem tickInOrder_tickLoop (hr : g.rounds = s.rounds.toNat) (hidle : s.phase ≠ .idle) (hcheck : s.phase ≠ .check)
    (i : Instr) : TickInOrder i s (s.tickLoop g i) := by
  cases hp : s.phase with
  | idle => exact absurd hp hidle
  | check => exact absurd hp hcheck
  | ksL => exact inPhase_self hp ▸ tickInOrder_ksL g i s s.scratch
  | ksS => exact inPhase_self hp ▸ tickInOrder_ksS g i s s.scratch
  | ksMix => exact inPhase_self hp ▸ tickInOrder_ksMix hr i s.scratch
  | encPre => exact inPhase_self hp ▸ tickInOrder_encPre hr i s.scratch
  | encRnd => exact inPhase_self hp ▸ tickInOrder_encRnd hr i s.scratch
  | decRnd => exact inPhase_self hp ▸ tickInOrder_decRnd g i s s.scratch
  | decPost => exact inPhase_self hp ▸ tickInOrder_decPost g i s s.scratch
  | out => exact inPhase_self hp ▸ tickInOrder_out g i s s.scratch

/-- An idle engine stays idle. -/
theorem tickInOrder_idle (hs : s.phase = .idle) (i : Instr) : TickInOrder i s s :=
  ⟨by simp [State.phasesAfter, hs], roundsCounted_outside (by rw [hs]; decide) (by simp [hs]),
    fun _ h => absurd hs h, fun h => absurd hs h⟩

/-- Past `CHECK` a tick that does not fault is `tickLoop` (log 13). -/
theorem tick_eq_tickLoop (hidle : s.phase ≠ .idle) (hcheck : s.phase ≠ .check) (ht : s.tick i = .next t) :
    ∃ g, s.keyInputs? = some g ∧ t = s.tickLoop g i := by
  cases hg : s.keyInputs? with
  | some g =>
    rw [← inPhase_self (s := s) rfl, tick_inPhase hg hidle hcheck] at ht
    exact ⟨g, rfl, (Host.Outcome.next.inj ht).symm⟩
  | none =>
    unfold State.tick at ht
    split at ht
    · next h => exact absurd h hidle
    · next h => exact absurd h hcheck
    all_goals simp [hg] at ht

theorem tickInOrder_tick (ht : s.tick i = .next t) : TickInOrder i s t := by
  by_cases hidle : s.phase = .idle
  · rw [State.tick, hidle] at ht
    cases ht
    exact tickInOrder_idle hidle i
  · by_cases hcheck : s.phase = .check
    · exact tickInOrder_check hcheck ht
    · obtain ⟨g, hg, rfl⟩ := tick_eq_tickLoop hidle hcheck ht
      obtain ⟨-, hrounds, -⟩ := keyInputs?_eq hg
      exact tickInOrder_tickLoop hrounds hidle hcheck i

end PhaseOrder

/-- Settles O48: idle, `CHECK` and the phases past it, each tick by the outcome of its phase. -/
theorem phasesFollowTheirOrder : Obligations.PhasesFollowTheirOrder := by
  intro s t i ht
  obtain ⟨hphase, hrounds, hends, hwithin⟩ := tickInOrder_tick ht
  exact ⟨hphase, hrounds, hends, hwithin⟩

end Sys2Proof.Machine

/-! ### Encryption: the block, the rounds beside the reference, and the inverse (rules R135 to R140) -/

namespace Sys2Proof.Machine

section Encryption

variable {w : Width} {x y : Scratch} {g : KeyInputs} {block : List Byte}

/-! #### The block as two words (rules R136, R139, R151, R154) -/

/-- Both registers of the block hold words of width `W` (rule R95). -/
structure BlockWords (w : Width) (x : Scratch) : Prop where
  a : IsWord w x.a
  b : IsWord w x.b

/-- The registers of the block as the reference's pair `(A, B)`. -/
def Scratch.pair (x : Scratch) : Nat × Nat := (x.a.toNat, x.b.toNat)

theorem leDec_readBytes_toNat {o : Nat} (h : o + w.bytes ≤ block.length) :
    (leDec (readBytes block o w.bytes)).toNat = Ref.leDec w.bytes (block.map BitVec.toNat) o := by
  rw [leDec_toNat ((readBytes_length_of_le h).trans_le w.bytes_le), leNat_readBytes _ h]

theorem decodeBlock_pair (h : block.length = 2 * w.bytes) (x : Scratch) :
    (x.decodeBlock w block).pair =
      (Ref.leDec w.bytes (block.map BitVec.toNat) 0, Ref.leDec w.bytes (block.map BitVec.toNat) w.bytes) :=
  Prod.ext (leDec_readBytes_toNat (by omega)) (leDec_readBytes_toNat (by omega))

theorem blockWords_decodeBlock (h : block.length = 2 * w.bytes) (x : Scratch) :
    BlockWords w (x.decodeBlock w block) :=
  ⟨isWord_leDec (readBytes_length_of_le (by omega)), isWord_leDec (readBytes_length_of_le (by omega))⟩

/-- A block of two words is its two halves, one after the other. -/
theorem readBytes_append_readBytes {u : Nat} (h : block.length = 2 * u) :
    readBytes block 0 u ++ readBytes block u u = block := by
  have hrest : (block.drop u).take u = block.drop u := List.take_of_length_le (by rw [List.length_drop]; omega)
  rw [readBytes, readBytes, List.drop_zero, hrest, List.take_append_drop]

theorem encodeBlock_decodeBlock (h : block.length = 2 * w.bytes) (x : Scratch) :
    ((x.decodeBlock w block).encodeBlock w).blk = block := by
  rw [Scratch.encodeBlock_blk, Scratch.decodeBlock_a, Scratch.decodeBlock_b,
    leEnc_leDec (readBytes_length_of_le (by omega)), leEnc_leDec (readBytes_length_of_le (by omega)),
    readBytes_append_readBytes h]

/-- Decoding an encoded block gives its words back. -/
theorem decodeBlock_encodeBlock (hx : BlockWords w x) (y : Scratch) :
    (y.decodeBlock w (x.encodeBlock w).blk).a = x.a ∧ (y.decodeBlock w (x.encodeBlock w).blk).b = x.b := by
  have hfirst : readBytes (leEnc w x.a ++ leEnc w x.b) 0 w.bytes = leEnc w x.a :=
    List.take_left' (leEnc_length w x.a)
  have hsecond : readBytes (leEnc w x.a ++ leEnc w x.b) w.bytes w.bytes = leEnc w x.b := by
    rw [readBytes, List.drop_left' (leEnc_length w x.a), List.take_of_length_le (leEnc_length w x.b).le]
  rw [Scratch.encodeBlock_blk, Scratch.decodeBlock_a, Scratch.decodeBlock_b, hfirst, hsecond, leDec_leEnc hx.a,
    leDec_leEnc hx.b]
  exact ⟨rfl, rfl⟩

theorem encodeBlock_blk_toNat (w : Width) (x : Scratch) :
    (x.encodeBlock w).blk.map BitVec.toNat = Ref.leEnc w.bytes x.pair.1 ++ Ref.leEnc w.bytes x.pair.2 := by
  rw [Scratch.encodeBlock_blk, List.map_append, leEnc_map_toNat, leEnc_map_toNat, Scratch.pair]

theorem encodeBlock_blk_length (w : Width) (x : Scratch) : (x.encodeBlock w).blk.length = 2 * w.bytes := by
  rw [Scratch.encodeBlock_blk, List.length_append, leEnc_length, leEnc_length, Nat.two_mul]

/-! #### The registers of the block stay words (rule R95) -/

theorem isWord_encHalf (w : Width) (x y k : Word) : IsWord w (encHalf w x y k) := isWord_addW ..

theorem isWord_decHalf (w : Width) (x y k : Word) : IsWord w (decHalf w x y k) := isWord_xorW ..

theorem blockWords_encPre (w : Width) (x : Scratch) : BlockWords w (x.encPre w) := ⟨isWord_addW .., isWord_addW ..⟩

theorem blockWords_decPost (w : Width) (x : Scratch) : BlockWords w (x.decPost w) := ⟨isWord_subW .., isWord_subW ..⟩

theorem blockWords_encRound (w : Width) (r : Nat) (x : Scratch) : BlockWords w (x.encRound w r) :=
  ⟨isWord_encHalf .., isWord_encHalf ..⟩

theorem blockWords_decRound (w : Width) (r : Nat) (x : Scratch) : BlockWords w (x.decRound w r) :=
  ⟨isWord_decHalf .., isWord_decHalf ..⟩

theorem blockWords_encRounds (hx : BlockWords w x) : ∀ n, BlockWords w (Scratch.encRounds w n x)
  | 0 => hx
  | _ + 1 => blockWords_encRound ..

theorem blockWords_decRounds (hx : BlockWords w x) (n : Nat) : BlockWords w (Scratch.decRounds w n x) := by
  induction n generalizing x with
  | zero => exact hx
  | succ n ih => exact ih (blockWords_decRound ..)

/-! #### The rounds beside the reference (rules R137, R138, R152) -/

/-- The reference's table holds the numbers of the machine's, inside its length. -/
def TableMatches (S : Nat → Nat) (table : List Word) : Prop := ∀ n, n < table.length → S n = (readTable table n).toNat

/-- One line of rule R138. -/
theorem encHalf_toNat {a b : Word} (ha : IsWord w a) (hb : IsWord w b) (k : Word) :
    (encHalf w a b k).toNat =
      Ref.add w.bits (Ref.rotl w.bits (Ref.xor a.toNat b.toNat) b.toNat) k.toNat := by
  rw [encHalf, addW_toNat, rotlW_toNat (isWord_xorW ..), xorW_toNat ha hb]

/-- One line of rule R152. -/
theorem decHalf_toNat {a b k : Word} (ha : IsWord w a) (hb : IsWord w b) (hk : IsWord w k) :
    (decHalf w a b k).toNat =
      Ref.xor (Ref.rotr w.bits (Ref.sub w.bits a.toNat k.toNat) b.toNat) b.toNat := by
  rw [decHalf, xorW_toNat (isWord_rotrW ..) hb, rotrW_toNat (isWord_subW ..), subW_toNat ha hk]

variable {S : Nat → Nat} {r : Nat}

theorem encRound_pair (hx : BlockWords w x) (hS : TableMatches S x.S) (hr : 2 * r + 1 < x.S.length) :
    (x.encRound w r).pair = Ref.encRound w.bits S r x.pair := by
  have ha : (x.encRound w r).a.toNat = (Ref.encRound w.bits S r x.pair).1 := by
    rw [Scratch.encRound_a, encHalf_toNat hx.a hx.b, ← hS _ (by omega)]
    rfl
  have hb : (x.encRound w r).b.toNat = (Ref.encRound w.bits S r x.pair).2 := by
    rw [Scratch.encRound_b, encHalf_toNat hx.b (blockWords_encRound w r x).a, ← hS _ hr, ha]
    rfl
  exact Prod.ext ha hb

theorem decRound_pair (hx : BlockWords w x) (hwords : ∀ v ∈ x.S, IsWord w v) (hS : TableMatches S x.S)
    (hr : 2 * r + 1 < x.S.length) : (x.decRound w r).pair = Ref.decRound w.bits S r x.pair := by
  have hb : (x.decRound w r).b.toNat = (Ref.decRound w.bits S r x.pair).2 := by
    rw [Scratch.decRound_b, decHalf_toNat hx.b hx.a (isWord_readTable hwords _), ← hS _ hr]
    rfl
  have ha : (x.decRound w r).a.toNat = (Ref.decRound w.bits S r x.pair).1 := by
    rw [Scratch.decRound_a, decHalf_toNat hx.a (blockWords_decRound w r x).b (isWord_readTable hwords _),
      ← hS _ (by omega), hb]
    rfl
  exact Prod.ext ha hb

theorem encPre_pair (hS : TableMatches S x.S) (h : 1 < x.S.length) :
    (x.encPre w).pair = (Ref.add w.bits x.pair.1 (S 0), Ref.add w.bits x.pair.2 (S 1)) := by
  rw [hS 0 (by omega), hS 1 h]
  exact Prod.ext (addW_toNat ..) (addW_toNat ..)

/-- The rounds of rule R135, ascending. -/
theorem encRounds_pair (hx : BlockWords w x) (hS : TableMatches S x.S) (n : Nat) (hn : 2 * n + 1 < x.S.length) :
    (Scratch.encRounds w n x).pair =
      ((List.range n).map (· + 1)).foldl (fun p r => Ref.encRound w.bits S r p) x.pair := by
  induction n with
  | zero => rfl
  | succ n ih =>
    have htable : (Scratch.encRounds w n x).S = x.S := encRounds_S w n x
    rw [Scratch.encRounds, encRound_pair (blockWords_encRounds hx n) (htable ▸ hS) (htable ▸ hn), ih (by omega),
      List.range_succ, List.map_append, List.foldl_append]
    rfl

/-! #### `ENCRYPT` beside the reference (rule R135) -/

/-- The reference engine's registers once the block and the key schedule are loaded (rules R122, R136, R151). -/
def KeyInputs.loadBlock (g : KeyInputs) (block : List Byte) : Scratch :=
  (Scratch.reset.decodeBlock g.w block).keySchedule g

theorem payload_encrypt (g : KeyInputs) (block : List Byte) :
    g.payload (.encrypt block) = ((g.loadBlock block).encryptLoaded g).blk := rfl

theorem payload_decrypt (g : KeyInputs) (block : List Byte) :
    g.payload (.decrypt block) = ((g.loadBlock block).decryptLoaded g).blk := rfl

theorem loadBlock_S (g : KeyInputs) (block : List Byte) : (g.loadBlock block).S = keyTable g := keySchedule_S ..

/-- The key schedule leaves the loaded block alone (rule R27). -/
theorem loadBlock_a (g : KeyInputs) (block : List Byte) :
    (g.loadBlock block).a = (Scratch.reset.decodeBlock g.w block).a := keySchedule_a ..

theorem loadBlock_b (g : KeyInputs) (block : List Byte) :
    (g.loadBlock block).b = (Scratch.reset.decodeBlock g.w block).b := keySchedule_b ..

theorem loadBlock_pair (h : block.length = 2 * g.w.bytes) :
    (g.loadBlock block).pair =
      (Ref.leDec g.w.bytes (block.map BitVec.toNat) 0, Ref.leDec g.w.bytes (block.map BitVec.toNat) g.w.bytes) := by
  rw [Scratch.pair, loadBlock_a, loadBlock_b]
  exact decodeBlock_pair h Scratch.reset

theorem tableMatches_keyTable (hkey : g.key.length = g.klen) (hmod : g.klen % g.w.bytes = 0) :
    TableMatches (Ref.keySchedule g.w.bytes g.rounds g.q64.toNat (g.key.map BitVec.toNat)) (keyTable g) :=
  fun _ hn => (keyTable_toNat hkey hmod (keyTable_length g ▸ hn)).symm

theorem payload_encrypt_toNat (hS : TableMatches S (keyTable g)) (h : block.length = 2 * g.w.bytes) :
    (g.payload (.encrypt block)).map BitVec.toNat =
      Ref.encrypt g.w.bytes g.rounds S (block.map BitVec.toNat) := by
  have htable : (g.loadBlock block).S = keyTable g := loadBlock_S g block
  have hlength : 2 * g.rounds + 1 < (g.loadBlock block).S.length := by
    rw [htable, keyTable_length, KeyInputs.t]; omega
  have hpre := encPre_pair (w := g.w) (htable ▸ hS) (by omega)
  have hrounds := encRounds_pair (blockWords_encPre g.w (g.loadBlock block)) (htable ▸ hS) g.rounds hlength
  rw [payload_encrypt, Scratch.encryptLoaded, encodeBlock_blk_toNat, hrounds, hpre, loadBlock_pair h, Width.bits_eq]
  rfl

/-! #### `DECRYPT` takes back what `ENCRYPT` did, and the reverse (rules R137, R138, R140, R152, R153)

The rounds also write the round number, which none of them reads, so states are compared by `SameBlock`. -/

theorem SameBlock.trans {z : Scratch} (h : SameBlock x y) (h' : SameBlock y z) : SameBlock x z :=
  ⟨h.a.trans h'.a, h.b.trans h'.b, h.S.trans h'.S⟩

theorem sameBlock_atRound (n : Nat) (x : Scratch) : SameBlock (x.atRound n) x := ⟨rfl, rfl, rfl⟩

theorem SameBlock.encRound (h : SameBlock x y) (w : Width) (r : Nat) : SameBlock (x.encRound w r) (y.encRound w r) :=
  ⟨by simp [h.a, h.b, h.S], by simp [h.a, h.b, h.S], h.S⟩

theorem decPost_encPre (hx : BlockWords w x) : SameBlock ((x.encPre w).decPost w) x :=
  ⟨subW_addW hx.a _, subW_addW hx.b _, rfl⟩

theorem encPre_decPost (hx : BlockWords w x) : SameBlock ((x.decPost w).encPre w) x :=
  ⟨addW_subW hx.a _, addW_subW hx.b _, rfl⟩

/-- The first decryption round takes back the last encryption round. -/
theorem decRounds_encRounds (hx : BlockWords w x) (n : Nat) :
    SameBlock (Scratch.decRounds w n (Scratch.encRounds w n x)) x := by
  induction n with
  | zero => exact ⟨rfl, rfl, rfl⟩
  | succ n ih =>
    have hwords := blockWords_encRounds hx n
    rw [Scratch.encRounds, Scratch.decRounds, decRound_encRound hwords.a hwords.b]
    exact ((sameBlock_atRound (n + 1) _).decRounds w n).trans ih

/-- The last encryption round takes back the first decryption round. -/
theorem encRounds_decRounds (hx : BlockWords w x) (n : Nat) :
    SameBlock (Scratch.encRounds w n (Scratch.decRounds w n x)) x := by
  induction n generalizing x with
  | zero => exact ⟨rfl, rfl, rfl⟩
  | succ n ih =>
    have hinner := ih (blockWords_decRound w (n + 1) x)
    have houter := hinner.encRound w (n + 1)
    rw [encRound_decRound hx.a hx.b] at houter
    exact houter.trans (sameBlock_atRound (n + 1) x)

theorem blockWords_loadBlock (h : block.length = 2 * g.w.bytes) : BlockWords g.w (g.loadBlock block) := by
  obtain ⟨ha, hb⟩ := blockWords_decodeBlock h Scratch.reset
  exact ⟨loadBlock_a g block ▸ ha, loadBlock_b g block ▸ hb⟩

/-- A loaded block is encoded to itself. -/
theorem encodeBlock_loadBlock (h : block.length = 2 * g.w.bytes) : ((g.loadBlock block).encodeBlock g.w).blk = block := by
  rw [Scratch.encodeBlock_blk, loadBlock_a, loadBlock_b]
  exact encodeBlock_decodeBlock h Scratch.reset

/-- Loading the block that a command has answered brings back the registers it was encoded from. -/
theorem loadBlock_encodeBlock (hx : BlockWords g.w x) (hS : x.S = keyTable g) :
    SameBlock (g.loadBlock (x.encodeBlock g.w).blk) x := by
  obtain ⟨ha, hb⟩ := decodeBlock_encodeBlock hx Scratch.reset
  exact ⟨(loadBlock_a ..).trans ha, (loadBlock_b ..).trans hb, (loadBlock_S ..).trans hS.symm⟩

theorem payload_encrypt_length (g : KeyInputs) (block : List Byte) :
    (g.payload (.encrypt block)).length = 2 * g.w.bytes := encodeBlock_blk_length ..

theorem payload_decrypt_length (g : KeyInputs) (block : List Byte) :
    (g.payload (.decrypt block)).length = 2 * g.w.bytes := encodeBlock_blk_length ..

/-- `DECRYPT` of `ENCRYPT`: the rounds undo each other, then the post-subtraction undoes round 0. -/
theorem payload_decrypt_encrypt (h : block.length = 2 * g.w.bytes) :
    g.payload (.decrypt (g.payload (.encrypt block))) = block := by
  have hpre := blockWords_encPre g.w (g.loadBlock block)
  have hload := loadBlock_encodeBlock (blockWords_encRounds hpre g.rounds)
    ((encRounds_S ..).trans (loadBlock_S g block))
  have hrounds := (hload.decRounds g.w g.rounds).trans (decRounds_encRounds hpre g.rounds)
  have hpost := (hrounds.decPost g.w).trans (decPost_encPre (blockWords_loadBlock h))
  exact (hpost.encodeBlock g.w).trans (encodeBlock_loadBlock h)

/-- `ENCRYPT` of `DECRYPT`: round 0 undoes the post-subtraction, then the rounds undo each other. -/
theorem payload_encrypt_decrypt (h : block.length = 2 * g.w.bytes) :
    g.payload (.encrypt (g.payload (.decrypt block))) = block := by
  have hwords := blockWords_loadBlock h
  have hload := loadBlock_encodeBlock (blockWords_decPost g.w (Scratch.decRounds g.w g.rounds (g.loadBlock block)))
    ((decRounds_S ..).trans (loadBlock_S g block))
  have hpre := (hload.encPre g.w).trans (encPre_decPost (blockWords_decRounds hwords g.rounds))
  have hrounds := (hpre.encRounds g.w g.rounds).trans (encRounds_decRounds hwords g.rounds)
  exact (hrounds.encodeBlock g.w).trans (encodeBlock_loadBlock h)

/-- Ready engines with the same key, word size, round count and `Q64` have the same inputs: a stored key has its length in
`klen`. -/
theorem Ready.keyInputs?_congr {s s' : State} (h : Ready s) (h' : Ready s') (hw : s'.wordBytes = s.wordBytes)
    (hr : s'.rounds = s.rounds) (hk : s'.key = s.key) (hq : s'.params.q64 = s.params.q64) :
    s'.keyInputs? = s.keyInputs? := by
  have hlength : s'.klen.toNat = s.klen.toNat := by
    rw [← (h'.inv.persistent.config h'.life).key, ← (h.inv.persistent.config h.life).key, hk]
  exact Machine.keyInputs?_congr hw hr hk (BitVec.eq_of_toNat_eq hlength) hq

/-- A ready engine's use with a good operand is answered by its inputs alone. -/
theorem Ready.exec_use {s : State} {i : Instr} (h : Ready s) (hi : isUse i) (hb : s.operandPasses i)
    (hg : s.keyInputs? = some g) :
    ∃ t, exec i s = .next t ∧ AnsweredWith s t (responsePacket .ok (g.payload i)) :=
  ⟨_, exec_use_ok hi h.inv.persistent.cache h.life h.keyPasses hb hg, keepTable_respond_answered ..⟩

end Encryption

/-- Settles O25: each half is a word of `u` bytes, and `leEnc` and `leDec` undo each other on it. -/
theorem blockCodecIsLittleEndianAndExact : Obligations.BlockCodecIsLittleEndianAndExact := by
  intro w x block h
  obtain ⟨ha, hb⟩ := Prod.mk.inj (decodeBlock_pair h x)
  exact ⟨ha, hb, encodeBlock_decodeBlock h x, fun _ _ => encodeBlock_blk_toNat w x⟩

/-- Settles O23: line by line, the second with the word the first has just written. -/
theorem roundsFollowTheirRules : Obligations.RoundsFollowTheirRules :=
  fun _ _ _ ha hb hwords hr =>
    ⟨encRound_pair ⟨ha, hb⟩ (fun _ _ => rfl) hr, decRound_pair ⟨ha, hb⟩ hwords (fun _ _ => rfl) hr⟩

/-- Settles O14: the tests in the order of rule R171, then the machine's rounds beside the reference's over the table of the
pseudocode. -/
theorem encryptFollowsItsPseudocode : Obligations.EncryptFollowsItsPseudocode := by
  intro s block
  refine ⟨fun hl => ⟨_, exec_unconfigured rfl hl, raise_rejected s _⟩,
    fun hl hbad => ⟨_, exec_badKey rfl hl ((keyTest_fails_iff s).mp hbad), raise_rejected s _⟩,
    fun hl hlength hwords hb =>
      ⟨_, execEncrypt_badBlock hl (keyPasses_iff.mpr ⟨hlength, hwords⟩) ((blockTest_fails_iff s block).mp hb),
        raise_rejected s _⟩,
    fun hready hb => ?_⟩
  obtain ⟨g, hg, hkey, hmod, hw, hr, htable⟩ := hready.keyInputs
  obtain ⟨t, hexec, hanswer⟩ := hready.exec_use (i := .encrypt block) rfl (blockPasses_iff.mpr hb) hg
  refine ⟨t, _, hexec, hanswer, ?_⟩
  rw [← htable, ← hw, ← hr]
  exact payload_encrypt_toNat (tableMatches_keyTable hkey hmod) (hw ▸ hb)

/-- Settles O18: the two functions are the payloads over the inputs the engines share. -/
theorem encryptIsABijectionOnBlocks : Obligations.EncryptIsABijectionOnBlocks := by
  intro s hready
  obtain ⟨g, hg, -, -, hw, -, -⟩ := hready.keyInputs
  rw [← hw]
  refine ⟨fun p => g.payload (.encrypt p), fun p => g.payload (.decrypt p), ?answers, ?inverse, ?injective, ?surjective⟩
  case answers =>
    intro s' hready' hwidth hrounds hkey hq64 p hp
    have hg' : s'.keyInputs? = some g := (hready.keyInputs?_congr hready' hwidth hrounds hkey hq64).trans hg
    have hblock : s'.blockPasses p := blockPasses_iff.mpr (by rw [hp, hwidth, hw])
    obtain ⟨t, hencrypt, hanswer⟩ := hready'.exec_use (i := .encrypt p) rfl hblock hg'
    obtain ⟨t', hdecrypt, hanswer'⟩ := hready'.exec_use (i := .decrypt p) rfl hblock hg'
    exact ⟨⟨t, hencrypt, hanswer.outbox⟩, ⟨t', hdecrypt, hanswer'.outbox⟩⟩
  case inverse =>
    exact fun p hp => ⟨payload_encrypt_length g p, payload_decrypt_length g p, payload_decrypt_encrypt hp,
      payload_encrypt_decrypt hp⟩
  case injective =>
    intro p p' hp hp' hf
    calc p = g.payload (.decrypt (g.payload (.encrypt p))) := (payload_decrypt_encrypt hp).symm
      _ = g.payload (.decrypt (g.payload (.encrypt p'))) := congrArg (fun q => g.payload (.decrypt q)) hf
      _ = p' := payload_decrypt_encrypt hp'
  case surjective =>
    exact fun q hq => ⟨g.payload (.decrypt q), payload_decrypt_length g q, payload_encrypt_decrypt hq⟩

end Sys2Proof.Machine

/-! ### Decryption: `DECRYPT` beside the reference, and the round trip (rules R150 to R155) -/

namespace Sys2Proof.Machine

section Decryption

variable {w : Width} {x : Scratch} {g : KeyInputs} {block : List Byte} {S : Nat → Nat}

/-! #### The rounds and the post-subtraction beside the reference (rules R150, R152, R153) -/

/-- The rounds of rule R150, descending: round `n + 1` comes first, and the rest start from what it leaves. -/
theorem decRounds_pair (hx : BlockWords w x) (hwords : ∀ v ∈ x.S, IsWord w v) (hS : TableMatches S x.S) (n : Nat)
    (hn : 2 * n + 1 < x.S.length) :
    (Scratch.decRounds w n x).pair =
      ((List.range n).map (· + 1)).reverse.foldl (fun p r => Ref.decRound w.bits S r p) x.pair := by
  induction n generalizing x with
  | zero => rfl
  | succ n ih =>
    have hrest := ih (blockWords_decRound w (n + 1) x) hwords hS (Nat.lt_trans (by omega) hn)
    rw [Scratch.decRounds, hrest, decRound_pair hx hwords hS hn, List.range_succ, List.map_append, List.reverse_append]
    rfl

theorem decPost_pair (hx : BlockWords w x) (hwords : ∀ v ∈ x.S, IsWord w v) (hS : TableMatches S x.S)
    (h : 1 < x.S.length) :
    (x.decPost w).pair = (Ref.sub w.bits x.pair.1 (S 0), Ref.sub w.bits x.pair.2 (S 1)) := by
  rw [hS 0 (by omega), hS 1 h]
  exact Prod.ext (subW_toNat hx.a (isWord_readTable hwords 0)) (subW_toNat hx.b (isWord_readTable hwords 1))

/-! #### `DECRYPT` beside the reference (rule R150) -/

theorem payload_decrypt_toNat (hS : TableMatches S (keyTable g)) (h : block.length = 2 * g.w.bytes) :
    (g.payload (.decrypt block)).map BitVec.toNat =
      Ref.decrypt g.w.bytes g.rounds S (block.map BitVec.toNat) := by
  have hload : (g.loadBlock block).S = keyTable g := loadBlock_S g block
  have hleft : (Scratch.decRounds g.w g.rounds (g.loadBlock block)).S = keyTable g := (decRounds_S ..).trans hload
  have hlength : 2 * g.rounds + 1 < (keyTable g).length := by rw [keyTable_length, KeyInputs.t]; omega
  have hblock := blockWords_loadBlock h
  have hrounds := decRounds_pair hblock (hload ▸ isWord_keyTable g) (hload ▸ hS) g.rounds (hload ▸ hlength)
  have hpost := decPost_pair (blockWords_decRounds hblock g.rounds) (hleft ▸ isWord_keyTable g) (hleft ▸ hS)
    (hleft ▸ Nat.lt_of_le_of_lt (by omega) hlength)
  rw [payload_decrypt, Scratch.decryptLoaded, encodeBlock_blk_toNat, hpost, hrounds, loadBlock_pair h, Width.bits_eq]
  rfl

/-! #### A block through two lifetimes (rule R155) -/

/-- A use of each of two ready engines with the same inputs: each answers the payload those inputs give. -/
theorem Ready.exec_on_both {s s' : State} (hs : Ready s) (hs' : Ready s') (hg : s.keyInputs? = some g)
    (hg' : s'.keyInputs? = some g) {i j : Instr} (hi : isUse i) (hj : isUse j) (hpasses : s.operandPasses i)
    (hpasses' : s'.operandPasses j) (hundo : g.payload j = block) :
    ∃ t t', exec i s = .next t ∧ t.outbox = s.outbox ++ [responsePacket .ok (g.payload i)] ∧
      exec j s' = .next t' ∧ t'.outbox = s'.outbox ++ [responsePacket .ok block] := by
  obtain ⟨t, hexec, hanswer⟩ := hs.exec_use hi hpasses hg
  obtain ⟨t', hexec', hanswer'⟩ := hs'.exec_use hj hpasses' hg'
  exact ⟨t, t', hexec, hanswer.outbox, hexec', hundo ▸ hanswer'.outbox⟩

end Decryption

/-- Settles O15: the tests in the order of rule R171, then the machine's rounds, descending, beside the reference's over the
table of the pseudocode. -/
theorem decryptFollowsItsPseudocode : Obligations.DecryptFollowsItsPseudocode := by
  intro s block
  refine ⟨fun hl => ⟨_, exec_unconfigured rfl hl, raise_rejected s _⟩,
    fun hl hbad => ⟨_, exec_badKey rfl hl ((keyTest_fails_iff s).mp hbad), raise_rejected s _⟩,
    fun hl hlength hwords hb =>
      ⟨_, execDecrypt_badBlock hl (keyPasses_iff.mpr ⟨hlength, hwords⟩) ((blockTest_fails_iff s block).mp hb),
        raise_rejected s _⟩,
    fun hready hb => ?_⟩
  obtain ⟨g, hg, hkey, hmod, hw, hr, htable⟩ := hready.keyInputs
  obtain ⟨t, hexec, hanswer⟩ := hready.exec_use (i := .decrypt block) rfl (blockPasses_iff.mpr hb) hg
  refine ⟨t, _, hexec, hanswer, ?_⟩
  rw [← htable, ← hw, ← hr]
  exact payload_decrypt_toNat (tableMatches_keyTable hkey hmod) (hw ▸ hb)

/-- Settles O17: both lifetimes have the same inputs, and over them the payloads of `ENCRYPT` and `DECRYPT` undo each
other. -/
theorem decryptUndoesEncryptAndBack : Obligations.DecryptUndoesEncryptAndBack := by
  intro s s' p hs hs' hwidth hrounds hkey hq64 hp
  obtain ⟨g, hg, -, -, hw, -, -⟩ := hs.keyInputs
  have hg' : s'.keyInputs? = some g := (hs.keyInputs?_congr hs' hwidth hrounds hkey hq64).trans hg
  have hpg : p.length = 2 * g.w.bytes := hw ▸ hp
  have hpasses : s.blockPasses p := blockPasses_iff.mpr hp
  have hpasses' : ∀ q : List Byte, q.length = 2 * g.w.bytes → s'.blockPasses q := fun q hq =>
    blockPasses_iff.mpr (by rw [hq, hwidth, hw])
  constructor
  · exact ⟨_, hs.exec_on_both hs' hg hg' (i := .encrypt p) (j := .decrypt _) rfl rfl hpasses
      (hpasses' _ (payload_encrypt_length g p)) (payload_decrypt_encrypt hpg)⟩
  · exact ⟨_, hs.exec_on_both hs' hg hg' (i := .decrypt p) (j := .encrypt _) rfl rfl hpasses
      (hpasses' _ (payload_decrypt_length g p)) (payload_encrypt_decrypt hpg)⟩

end Sys2Proof.Machine

/-! ### Exceptions: the first error that applies, and what an error leaves (rules R171 to R175) -/

namespace Sys2Proof.Machine

/-! #### An error is raised and nothing else happens (rules R171, R172) -/

section Errors

variable {s : State}

/-- The conditions on an `INIT` in the terms of the machine's own tests (rule R86). -/
theorem status_init_eq_ok_iff {wb : BitVec 8} {rounds kbl : BitVec 32} {key : List Byte} :
    Ref.status s (.instr (.init wb rounds kbl key)) = .ok ↔ s.life = .unconfigured ∧ s.configLegal wb rounds kbl key := by
  rw [status_init]
  cases hl : s.life with
  | configured => simp
  | unconfigured => simp

/-- An `INIT` that fails a test raises the error of rule R171. -/
theorem exec_init_error {wb : BitVec 8} {rounds kbl : BitVec 32} {key : List Byte}
    (h : Ref.status s (.instr (.init wb rounds kbl key)) ≠ .ok) :
    exec (.init wb rounds kbl key) s = .next (s.raise (Ref.status s (.instr (.init wb rounds kbl key)))) := by
  rw [exec, status_init]
  cases hl : s.life with
  | configured => exact execInit_configured hl
  | unconfigured =>
    have hc : ¬s.configLegal wb rounds kbl key := fun hc => h (status_init_eq_ok_iff.mpr ⟨hl, hc⟩)
    simpa [hc] using execInit_illegal hl hc

/-- A use that fails a test raises the error of rule R171. -/
theorem exec_use_error {i : Instr} (hi : isUse i) (h : Ref.status s (.instr i) ≠ .ok) :
    exec i s = .next (s.raise (Ref.status s (.instr i))) := by
  rw [status_use hi]
  cases hl : s.life with
  | unconfigured => exact exec_unconfigured hi hl
  | configured =>
    by_cases hk : s.keyPasses
    · have hb : ¬s.operandPasses i := fun hb => h ((status_use_eq_ok_iff hi).mpr ⟨hl, hk, hb⟩)
      simpa [hk, hb] using exec_badOperand hl hk hb
    · simpa [hk] using exec_badKey hi hl hk

theorem exec_error {i : Instr} (h : Ref.status s (.instr i) ≠ .ok) :
    exec i s = .next (s.raise (Ref.status s (.instr i))) := by
  cases i with
  | init wb rounds kbl key => exact exec_init_error h
  | _ => exact exec_use_error rfl h

/-- A packet to which an error applies is taken and the first such error raised, whatever else the state holds. -/
theorem step_error {p : Packet} {rest : List HostAction} (h : s.inbox = .send p :: rest)
    (he : Ref.status s (decode p) ≠ .ok) : step s = .next (s.takeAction.raise (Ref.status s (decode p))) := by
  have hstatus := (sameConfig_takeAction s).sameInputs.status (decode p)
  cases hd : decode p with
  | illegal why => exact step_illegal h hd
  | instr i =>
    rw [hd] at he hstatus
    rw [step_instr h hd, hstatus]
    exact exec_error (hstatus ▸ he)

theorem sameConfig_deliver (s : State) (p : Packet) : SameConfig s (s.deliver p) := ⟨rfl, rfl, rfl, rfl, rfl, rfl, rfl⟩

/-- A delivered packet to which an error applies leaves the state before its delivery with that error raised. -/
theorem step_deliver_error {p : Packet} (he : Ref.status s (decode p) ≠ .ok) :
    step (s.deliver p) = .next (s.raise (Ref.status s (decode p))) := by
  rw [(sameConfig_deliver s p).sameInputs.status] at he ⊢
  exact step_error rfl he

end Errors

/-! #### Two states with the same configuration and cache (rules R26, R34) -/

section SameCache

variable {s t u u' : State}

theorem SameConfig.construct (h : SameConfig s t) (wb : BitVec 8) (rounds kbl : BitVec 32) (key : List Byte) :
    SameConfig (s.construct wb rounds kbl key) (t.construct wb rounds kbl key) :=
  ⟨rfl, rfl, rfl, rfl, rfl, rfl, h.params⟩

theorem SameConfig.constructed (h : SameConfig s t) (c : Cmd) : SameConfig (s.constructed c) (t.constructed c) := by
  unfold State.constructed
  split
  next wb rounds kbl key =>
    rw [h.sameInputs.status]
    split
    · exact h.construct wb rounds kbl key
    · exact h
  next => exact h

theorem SameConfig.answered {response response' : Packet} (h : SameConfig s t) (hu : AnsweredWith s u response)
    (hu' : AnsweredWith t u' response') : SameConfig u u' :=
  hu.config.symm.trans (h.trans hu'.config)

/-- What `INIT` fills the cache with depends on what it has just constructed alone (rule R90). -/
theorem SameConfig.cacheAfterInit (h : SameConfig s t) : t.cacheAfterInit = s.cacheAfterInit := by
  rw [State.cacheAfterInit, State.cacheAfterInit, h.params, h.keyPasses, h.keyInputs?]

theorem SameConfig.cacheAfterUse (h : SameConfig s t) (hc : t.sCache = s.sCache) (table : List Word) :
    t.cacheAfterUse table = s.cacheAfterUse table := by
  rw [State.cacheAfterUse, State.cacheAfterUse, h.params, hc]

/-- An `INIT` whose tests pass fills the cache from what it constructs. -/
theorem exec_init_sCache {wb : BitVec 8} {rounds kbl : BitVec 32} {key : List Byte}
    (hok : Ref.status s (.instr (.init wb rounds kbl key)) = .ok) (hu : exec (.init wb rounds kbl key) s = .next u) :
    u.sCache = (s.construct wb rounds kbl key).cacheAfterInit := by
  obtain ⟨hl, hc⟩ := status_init_eq_ok_iff.mp hok
  rw [exec, execInit_legal hl hc] at hu
  cases hu
  rfl

/-- A use whose tests pass keeps the key schedule where the implementation does. -/
theorem exec_use_sCache {i : Instr} (hi : isUse i) (hs : s.PersistentOk) (hok : Ref.status s (.instr i) = .ok)
    (hu : exec i s = .next u) : ∃ g, s.keyInputs? = some g ∧ u.sCache = s.cacheAfterUse (keyTable g) := by
  obtain ⟨hl, hk, hb⟩ := (status_use_eq_ok_iff hi).mp hok
  obtain ⟨g, hg⟩ := keyInputs?_of_isSome (hs.config hl).width
  rw [exec_use_ok hi hs.cache hl hk hb hg] at hu
  cases hu
  exact ⟨g, hg, rfl⟩

/-- A command that succeeds leaves the same cache in two states with the same configuration and cache. -/
theorem exec_ok_sCache_congr {i : Instr} (h : SameConfig s t) (hc : t.sCache = s.sCache) (hs : s.PersistentOk)
    (hok : Ref.status s (.instr i) = .ok) (hu : exec i s = .next u) (hu' : exec i t = .next u') :
    u'.sCache = u.sCache := by
  have hok' : Ref.status t (.instr i) = .ok := h.sameInputs.status _ ▸ hok
  have huse (hi : isUse i) : u'.sCache = u.sCache := by
    obtain ⟨g, hg, hcache⟩ := exec_use_sCache hi hs hok hu
    obtain ⟨g', hg', hcache'⟩ := exec_use_sCache hi (h.persistentOk hc hs) hok' hu'
    have hgg : g' = g := Option.some.inj (hg'.symm.trans (h.keyInputs?.trans hg))
    rw [hcache, hcache', hgg, h.cacheAfterUse hc]
  cases i with
  | init wb rounds kbl key =>
    rw [exec_init_sCache hok hu, exec_init_sCache hok' hu', (h.construct wb rounds kbl key).cacheAfterInit]
  | _ => exact huse rfl

/-- So does every packet, for an error leaves the cache as it was (rule R172). -/
theorem step_deliver_sCache_congr {q : Packet} (h : SameConfig s t) (hc : t.sCache = s.sCache) (hs : s.PersistentOk)
    (hu : step (s.deliver q) = .next u) (hu' : step (t.deliver q) = .next u') : u'.sCache = u.sCache := by
  by_cases hok : Ref.status s (decode q) = .ok
  · cases hd : decode q with
    | illegal why => rw [hd] at hok; cases hok
    | instr i =>
      rw [step_instr rfl hd, takeAction_deliver] at hu hu'
      exact exec_ok_sCache_congr h hc hs (hd ▸ hok) hu hu'
  · rw [step_deliver_error hok] at hu
    rw [step_deliver_error (h.sameInputs.status _ ▸ hok)] at hu'
    cases hu
    cases hu'
    exact hc

/-- A delivered packet is answered as the state before its delivery says. -/
theorem step_deliver_answers (hs : s.PersistentOk) (q : Packet) : s.Answers (decode q) (step (s.deliver q)) :=
  step_answers (s := s.deliver q) ((sameConfig_deliver s q).persistentOk rfl hs) rfl

/-- Two states with the same configuration and cache answer a packet alike and have the same configuration and cache
after it. -/
theorem step_deliver_congr (h : SameConfig s t) (hc : t.sCache = s.sCache) (hs : s.PersistentOk) (q : Packet) :
    ∃ u u' response, step (s.deliver q) = .next u ∧ step (t.deliver q) = .next u' ∧
      u.outbox = s.outbox ++ [response] ∧ u'.outbox = t.outbox ++ [response] ∧ SameConfig u u' ∧
      u'.sCache = u.sCache := by
  obtain ⟨u, hu, hsu⟩ := step_deliver_answers hs q
  obtain ⟨u', hu', htu⟩ := step_deliver_answers (h.persistentOk hc hs) q
  have hout := hsu.outbox
  have hout' := htu.outbox
  rw [constructed_outbox] at hout hout'
  rw [← h.sameInputs.response] at hout'
  exact ⟨u, u', _, hu, hu', hout, hout', (h.constructed (decode q)).answered hsu htu,
    step_deliver_sCache_congr h hc hs hu hu'⟩

end SameCache

/-- Settles O34: no step is refused, and the word size that faults is none that the invariant allows a configured
engine. -/
theorem everyStepCompletes : Obligations.EveryStepCompletes := by
  intro s hs
  obtain ⟨hfault, hrefused⟩ := onlyAnIllegalWordSizeFaults s
  cases h : step s with
  | next t => exact ⟨t, rfl⟩
  | fault f =>
    obtain ⟨hl, h2, h4, h8⟩ := hfault f h
    have hwidth := Width.ofBytes?_isSome.mp (hs.persistent.config hl).width
    exact absurd hwidth (not_or.mpr ⟨h2, not_or.mpr ⟨h4, h8⟩⟩)
  | refused r => exact absurd h (hrefused r)

/-- Settles O37: `step_answers` where no test fails, and `step_error` where one does. -/
theorem statusIsTheFirstErrorThatApplies : Obligations.StatusIsTheFirstErrorThatApplies := by
  intro s p rest hs h
  obtain ⟨t, ht, hanswered⟩ := step_answers hs.persistent h
  refine ⟨t, ht, fun hok => ?_, fun he => ?_⟩
  · have hout := hanswered.outbox
    rw [(sameConfig_takeAction s).sameInputs.status] at hok
    rw [constructed_outbox, State.takeAction_outbox, response_of_ok hok] at hout
    exact ⟨_, hout⟩
  · rw [step_error h he, takeAction_eq h] at ht
    cases ht
    exact raise_rejected _ _

/-- Settles O38: the failed packet leaves the configuration and the cache, and the next answer depends on nothing else. -/
theorem errorsAreNotStickyAndRepeat : Obligations.ErrorsAreNotStickyAndRepeat := by
  intro s t p q hs _ he ht
  rw [step_deliver_error he] at ht
  cases ht
  have hrejected := raise_rejected s (Ref.status s (decode p))
  have hconfig := hrejected.answered.config
  have hstatus := hconfig.sameInputs.status (decode p)
  refine ⟨⟨_, step_deliver_error (hstatus ▸ he), ?_⟩, step_deliver_congr hconfig hrejected.cache hs.persistent q⟩
  rw [← hstatus]
  exact raise_rejected _ _

end Sys2Proof.Machine

/-! ### Reset, and what an engine can do until it is constructed (rules R170, R190 to R194) -/

namespace Sys2Proof.Machine

section Lifetime

variable {s t : State}

/-- Only success is numbered 0 (rule R71). -/
theorem Status.eq_ok_of_code {status : Status} : status.code = Status.ok.code → status = .ok := by
  cases status <;> decide

/-- An error's response is no `OK` response, whatever its payload: the first byte is the status (rule R70). -/
theorem eq_ok_of_responsePacket_eq {status : Status} {x y : List Byte}
    (h : responsePacket status x = responsePacket .ok y) : status = .ok :=
  Status.eq_ok_of_code (List.cons.inj h).1

theorem step_reset {rest : List HostAction} (h : s.inbox = .reset :: rest) : step s = .next s.takeAction.hostReset := by
  simp [step, h]

/-- The converse of `step_error`: a packet answered `OK` is one to which no error applies. -/
theorem status_eq_ok_of_step {p : Packet} {rest : List HostAction} {payload : List Byte}
    (h : s.inbox = .send p :: rest) (ht : step s = .next t)
    (hok : t.outbox = s.outbox ++ [responsePacket .ok payload]) : Ref.status s (decode p) = .ok := by
  by_contra he
  rw [step_error h he] at ht
  cases ht
  rw [State.raise_outbox, State.takeAction_outbox] at hok
  exact he (eq_ok_of_responsePacket_eq (List.singleton_inj.mp (List.append_cancel_left hok)))

/-- Before construction every packet but an `INIT` with legal fields is an error (rules R170, R192). -/
theorem init_of_status_eq_ok {c : Cmd} (hl : s.life = .unconfigured) (hok : Ref.status s c = .ok) :
    ∃ wb rounds kbl key, c = .instr (.init wb rounds kbl key) ∧ s.configLegal wb rounds kbl key := by
  have huse {i : Instr} (hi : isUse i) : Ref.status s (.instr i) ≠ .ok := fun h =>
    absurd (hl.symm.trans ((status_use_eq_ok_iff hi).mp h).1) (by decide)
  cases c with
  | illegal why => cases hok
  | instr i =>
    cases i with
    | init wb rounds kbl key => exact ⟨wb, rounds, kbl, key, rfl, (status_init_eq_ok_iff.mp hok).2⟩
    | _ => exact absurd hok (huse rfl)

end Lifetime

/-- Settles O11: the legal limits keep the length register exact, so the key tests read the lengths of the `INIT`. -/
theorem bootMakesTheEngineReady : Obligations.BootMakesTheEngineReady := by
  intro s wb rounds kbl key hs hl hwb hrounds hkbl hkey hmod
  have hc := configLegal_iff.mpr ⟨hwb, hrounds, hkbl, hkey.trans_le hkbl⟩
  obtain ⟨t, ht, hst⟩ := exec_init_ok hl hc
  have hpasses : t.keyPasses := by
    rw [hst.config.keyPasses, construct_keyPasses_iff hs.persistent.params hc]
    exact ⟨hkey, hmod⟩
  obtain ⟨hlengths, hwords⟩ := keyPasses_iff.mp hpasses
  exact ⟨t, ht, exec_keeps_inv hs.persistent ht, hst.config.life, hlengths, hwords⟩

/-- Settles O44: the answer says that no error applied, which leaves an `INIT` with legal fields. -/
theorem onlyInitSucceedsBeforeConstruction : Obligations.OnlyInitSucceedsBeforeConstruction := by
  intro s t p rest payload hl h ht hok
  obtain ⟨wb, rounds, kbl, key, hd, hc⟩ := init_of_status_eq_ok hl (status_eq_ok_of_step h ht hok)
  obtain ⟨u, hu, hsu⟩ := exec_init_ok (s := s.takeAction) hl hc
  rw [step_instr h hd, hu] at ht
  cases ht
  exact ⟨⟨wb, rounds, kbl, key, hd⟩, hsu.config.life⟩

/-- Settles O9: a reset takes its effect on the state without the action it was. -/
theorem resetEndsTheLifetime : Obligations.ResetEndsTheLifetime := by
  refine ⟨fun s rest h => ⟨_, step_reset h, rfl, rfl, rfl, rfl, ?_, rfl⟩, rfl, rfl, rfl⟩
  rw [takeAction_eq h, State.hostReset_inbox]

end Sys2Proof.Machine
